-- ==== Sys2Proof/Word.lean ====
section
/-! DEFINITION. The word types of the engine (R7, R10, R25): all values are unsigned bit vectors. -/

namespace Sys2Proof

/-- A 32-bit word of X, C, MX, MC (R7: "All words are unsigned 32-bit integers"). -/
abbrev Word := BitVec 32

/-- A 16-bit subkey k[i] or extraction result h[i] (R7, R37). -/
abbrev Half := BitVec 16

/-- A byte of an operand, a result, a frame or S. -/
abbrev Byte := BitVec 8

/-- The carry b and its snapshot Mb (R7: carry width 1 bit). -/
abbrev Carry := BitVec 1

/-- A vector of eight words: X, C, MX, MC, A (R25, R35 (a)). -/
abbrev Words := Vector Word 8

/-- A keystream block: the sixteen bytes of S (R25, R30). -/
abbrev Block := Vector Byte 16

end Sys2Proof
end

