-- ==== Sys2Proof/Machine/State.lean ====
section
/-! DEFINITION. The state record of one engine (R25), the channels of its interface (R170), and the state after reset
(R38, R156). -/

namespace Sys2Proof.Machine

/-- The lifecycle register (R31): Uninitialized, KeyInitialized, IVInitialized. The fourth 2-bit value is never
written and has no constructor (U3). -/
inductive Phase where
  | U | K | V
deriving DecidableEq, Repr

/-- The status of a response (R132). -/
inductive Status where
  /-- The command was carried out. -/
  | ok
  /-- KEYINIT with `len(key) ≠ 16` (R133). -/
  | invalidKeyLength
  /-- IVINIT, ENCMSG or DECMSG with an IV present and `len(iv) ≠ 8` (R134). -/
  | invalidIVLength
  /-- Any command but KEYINIT in phase U (R135). -/
  | notKeyInitialized
  /-- The frame decodes to no command (R136). -/
  | illegalCommand
deriving DecidableEq, Repr

/-- The one response to a command (R61). -/
structure Response where
  status : Status
  out    : List Byte
deriving DecidableEq, Repr

/-- Why the machine could stop. NOTHING STOPS IT: every error of the spec is a response, a defined outcome (R143),
every command terminates (R147) and the engine never halts (R171). So there is no constructor (log entry 10, safe). -/
inductive Fault where
deriving DecidableEq, Repr

/-- Why the model gives an instruction no meaning. -/
inductive Refusal where
  /-- Raised by a refused arm of `exec`, for an instruction without a meaning yet; no arm of this model is one. Safe. -/
  | notModelled (mnemonic : String)
deriving DecidableEq, Repr

/-- A coming assertion of the reset input (R156, R158; log entry 6). -/
structure ResetEvent where
  /-- How many more frames the engine answers before it: the assertion strikes while the next one is being received or
  executed, or while the engine is idle. -/
  frames : Nat
  /-- The command bytes the host presents after it. -/
  bytes  : List Byte
deriving DecidableEq, Repr

/-- The registers the generator's micro-operations work on (R101, R109, R117): X, C, b and S. -/
structure Generator where
  X : Words
  C : Words
  b : Carry
  S : Block
deriving DecidableEq, Repr

/-- The state of one engine and of its interface. Plain data. -/
structure State where
  /-- Working nonlinear state (R26). -/
  X  : Words
  /-- Working counter (R27). -/
  C  : Words
  /-- The carry between CounterUpdates (R28). -/
  b  : Carry
  /-- Master snapshot of X (R29). -/
  MX : Words
  /-- Master snapshot of C (R29). -/
  MC : Words
  /-- Master snapshot of b (R29). -/
  Mb : Carry
  /-- The keystream block (R30). -/
  S  : Block
  /-- The lifecycle register (R31). -/
  phase : Phase
  /-- The command channel: bytes the host has presented and the engine has not consumed (R62, R63; log entry 5). -/
  cmdIn : List Byte
  /-- The reset input: the coming assertions, the first one first (R146, R156, R158; log entry 6). -/
  resets : List ResetEvent
  /-- The response channel, oldest response first (R61, R171; log entry 8). -/
  responses : List Response
  /-- THE MODEL'S OWN: how many reset events have taken free values (log entry 4). -/
  draws : Nat
deriving DecidableEq, Repr

/-- The engine right after reset: phase U (R38, R156), idle. The spec gives the other registers no value; the zeros
here are the model's DESIGN CHOICE (log entry 3) and no statement rests on them. -/
def State.reset : State :=
  { X         := Vector.replicate 8 0
    C         := Vector.replicate 8 0
    b         := 0
    MX        := Vector.replicate 8 0
    MC        := Vector.replicate 8 0
    Mb        := 0
    S         := Vector.replicate 16 0
    phase     := .U
    cmdIn     := []
    resets    := []
    responses := []
    draws     := 0 }

/-- What a meaning answers. -/
abbrev Result := Host.Outcome State Fault Refusal

end Sys2Proof.Machine
end

