-- ==== Sys2Proof/Machine/Flags.lean ====
section
/-! DEFINITION. The carry b, the engine's only flag (R28), as CounterUpdate computes it (R102, R103), and the bits of
the control register phase (R31). -/

namespace Sys2Proof.Machine

/-- The 33-bit sum of one counter word, its constant and the carry into it (R102). It never overflows 33 bits (R103). -/
def counterSum (c a : Word) (b : Carry) : BitVec 33 :=
  c.setWidth 33 + a.setWidth 33 + b.setWidth 33

/-- The new counter word: `temp[31:0]` (R102). -/
def counterWord (c a : Word) (b : Carry) : Word := (counterSum c a b).extractLsb' 0 32

/-- The carry out of a counter word: `temp[32]` (R102). -/
def carryOut (c a : Word) (b : Carry) : Carry := (counterSum c a b).extractLsb' 32 1

/-- The 2-bit value of phase (R31). No rule and no response depends on it. -/
def phaseBits : Phase → BitVec 2
  | .U => 0
  | .K => 1
  | .V => 2

end Sys2Proof.Machine
end

