-- ==== Sys2Proof/Config.lean ====
section
/-! DEFINITION. What an implementation fixes (R8: the parameters A and IVMAP, taken as configuration fields), the
parameters the spec fixes (R7), and the free values a reset leaves behind (R38, R156, U1). -/

namespace Sys2Proof

/-- One row (p0, p1, p2, p3) of IVMAP: four IV byte indices in 0..7, lowest byte first (R8, R19). -/
structure IvBytes where
  p0 : Fin 8
  p1 : Fin 8
  p2 : Fin 8
  p3 : Fin 8
deriving DecidableEq, Repr

/-- The two parameters the spec names and leaves to a configuration (R8, R34). They are not state.
The default instance is `Sys2Proof.Machine.engineConfig` (Machine/Parameters.lean). -/
structure Config where
  A     : Words
  IVMAP : Vector IvBytes 8
deriving DecidableEq, Repr

/-- What the engine holds when reset strikes: its registers and the command bytes before it. What reset leaves may still
depend on all of it: reset is not said to erase a key (R157, R169). -/
structure Remains where
  X     : Words
  C     : Words
  b     : Carry
  MX    : Words
  MC    : Words
  Mb    : Carry
  S     : Block
  phase : BitVec 2
  bytes : List Byte
deriving DecidableEq, Repr

namespace Config

/-- KEYLEN, the key length in bytes (R7). -/
def keyLength : Nat := 16

/-- IVLEN, the IV length in bytes (R7). -/
def ivLength : Nat := 8

/-- BLK, the keystream block in bytes (R7). -/
def blockLength : Nat := 16

/-- WARM, the warm-up rounds of each schedule (R7). -/
def warmUpRounds : Nat := 4

/-- The header size of a frame in bytes (R9). -/
def headerLength : Nat := 8

/-- What the n-th reset event leaves in X (R38, R156: no specified value), whatever the engine held. A free value; log
entry 4. -/
opaque freeX : Nat → Remains → Words

/-- What the n-th reset event leaves in C. A free value; log entry 4. -/
opaque freeC : Nat → Remains → Words

/-- What the n-th reset event leaves in b. A free value; log entry 4. -/
opaque freeB : Nat → Remains → Carry

/-- What the n-th reset event leaves in MX. A free value; log entry 4. -/
opaque freeMX : Nat → Remains → Words

/-- What the n-th reset event leaves in MC. A free value; log entry 4. -/
opaque freeMC : Nat → Remains → Words

/-- What the n-th reset event leaves in Mb. A free value; log entry 4. -/
opaque freeMb : Nat → Remains → Carry

/-- What the n-th reset event leaves in S. A free value; log entry 4. -/
opaque freeS : Nat → Remains → Block

end Config

end Sys2Proof
end

