-- ==== Sys2Proof/Syntax.lean ====
section
/-! DEFINITION. The seven commands (R60, R65): one constructor per row of the opcode table, operands as the
abstract layer gives them (R60: byte strings of any finite length; `none` is not the empty string). -/

namespace Sys2Proof

/-- A command of the host. An IV operand is `none` (absent) or `some` of the bytes present (R60, R64). -/
inductive Instr where
  /-- KEYINIT(key): the key schedule (R85). -/
  | keyinit (key : List Byte)
  /-- IVINIT(iv): the IV schedule (R93). `ivinit none` is the pseudo-instruction IVNONE (R74). -/
  | ivinit (iv : Option (List Byte))
  /-- EXTRACT: one keystream block (R116). -/
  | extract
  /-- ENCRYPT(data): xor with the keystream (R122). -/
  | encrypt (data : List Byte)
  /-- DECRYPT(data): the same transform under its own name (R127). -/
  | decrypt (data : List Byte)
  /-- ENCMSG(iv, data): apply the IV, then transform (R128). -/
  | encmsg (iv : Option (List Byte)) (data : List Byte)
  /-- DECMSG(iv, data): the same operation under its own name (R129). -/
  | decmsg (iv : Option (List Byte)) (data : List Byte)
deriving DecidableEq, Repr

/-- The seven legal values of the OP field, by name (R65). -/
inductive Opcode where
  | keyinit | ivinit | extract | encrypt | decrypt | encmsg | decmsg
deriving DecidableEq, Repr

/-- The five frame formats (R64). -/
inductive Format where
  | K | V | E | D | M
deriving DecidableEq, Repr

/-- Which opcode a command has (R65). -/
def Instr.opcode : Instr → Opcode
  | .keyinit _ => .keyinit
  | .ivinit _ => .ivinit
  | .extract => .extract
  | .encrypt _ => .encrypt
  | .decrypt _ => .decrypt
  | .encmsg _ _ => .encmsg
  | .decmsg _ _ => .decmsg

/-- Which format an opcode has (R64). -/
def Opcode.format : Opcode → Format
  | .keyinit => .K
  | .ivinit => .V
  | .extract => .E
  | .encrypt => .D
  | .decrypt => .D
  | .encmsg => .M
  | .decmsg => .M

/-- The bytes of the parameter operand: the key of format K, the IV of formats V and M (R62, R64). -/
def Instr.paramBytes : Instr → List Byte
  | .keyinit key => key
  | .ivinit iv => iv.getD []
  | .extract => []
  | .encrypt _ => []
  | .decrypt _ => []
  | .encmsg iv _ => iv.getD []
  | .decmsg iv _ => iv.getD []

/-- The bytes of the data operand (R62, R64). -/
def Instr.dataBytes : Instr → List Byte
  | .keyinit _ => []
  | .ivinit _ => []
  | .extract => []
  | .encrypt data => data
  | .decrypt data => data
  | .encmsg _ data => data
  | .decmsg _ data => data

/-- Whether the IV operand is the distinguished value `none` (R60, R64). -/
def Instr.ivAbsent : Instr → Bool
  | .keyinit _ => false
  | .ivinit iv => iv.isNone
  | .extract => false
  | .encrypt _ => false
  | .decrypt _ => false
  | .encmsg iv _ => iv.isNone
  | .decmsg iv _ => iv.isNone

end Sys2Proof
end

