-- ==== Sys2Proof/WellFormed.lean ====
section
/-! DEFINITION. Which commands have a frame: the length fields ALEN and DLEN must hold the operand lengths (R63, R69).
A wrong key or IV length is NOT ill-formed: it has a frame and its command answers the length error (R64). -/

namespace Sys2Proof

/-- The parameter operand fits ALEN, 8 bits (R62, R69). -/
def Instr.paramFits (i : Instr) : Bool := i.paramBytes.length < 2 ^ 8

/-- The data operand fits DLEN, 32 bits (R62, R69). -/
def Instr.dataFits (i : Instr) : Bool := i.dataBytes.length < 2 ^ 32

/-- A command that a frame can carry (R69). -/
def Instr.wf (i : Instr) : Bool := i.paramFits && i.dataFits

end Sys2Proof
end

