-- ==== Sys2Proof/Decode.lean ====
section
/-! DEFINITION. Frames (R62 to R71): byte-order helpers, the header, the decoder (total, rejecting by name) and the
encoder written from the same tables. -/

namespace Sys2Proof

/-- Little-endian value of a byte string: the lowest index is least significant (R15, R48). -/
def leNat : List Byte → Nat
  | [] => 0
  | byte :: rest => byte.toNat + 2 ^ 8 * leNat rest

/-- The `n` bytes of a value, lowest index least significant (R15 MemWrite, R48). -/
def leBytes : Nat → Nat → List Byte
  | 0, _ => []
  | n + 1, v => BitVec.ofNat 8 v :: leBytes n (v / 2 ^ 8)

/-- The fields of a header (R62). -/
structure Header where
  OP   : BitVec 4
  N    : BitVec 1
  RSV0 : BitVec 3
  ALEN : BitVec 8
  RSV1 : BitVec 16
  DLEN : BitVec 32
deriving DecidableEq, Repr

/-- Cut the 64-bit header value H into its fields (R62). -/
def Header.ofBits (H : BitVec 64) : Header :=
  { OP   := H.extractLsb' 0 4
    N    := H.extractLsb' 4 1
    RSV0 := H.extractLsb' 5 3
    ALEN := H.extractLsb' 8 8
    RSV1 := H.extractLsb' 16 16
    DLEN := H.extractLsb' 32 32 }

/-- Put the fields of a header together again (R62). -/
def Header.toBits (h : Header) : BitVec 64 :=
  h.DLEN ++ h.RSV1 ++ h.ALEN ++ h.RSV0 ++ h.N ++ h.OP

/-- The operand bytes that follow a header: `ALEN + DLEN` (R63). -/
def Header.operandLength (h : Header) : Nat := h.ALEN.toNat + h.DLEN.toNat

/-- The opcode map (R65): the nine values not listed are illegal. -/
def opcodeOf (op : BitVec 4) : Option Opcode :=
  match op.toNat with
  | 1 => some .keyinit
  | 2 => some .ivinit
  | 3 => some .extract
  | 4 => some .encrypt
  | 5 => some .decrypt
  | 6 => some .encmsg
  | 7 => some .decmsg
  | _ => none

/-- The number of an opcode (R65). -/
def Opcode.code : Opcode → BitVec 4
  | .keyinit => 1
  | .ivinit => 2
  | .extract => 3
  | .encrypt => 4
  | .decrypt => 5
  | .encmsg => 6
  | .decmsg => 7

/-- The format may set N, its IV operand being `none` (R64, column N). -/
def Format.mayBeAbsent : Format → Bool
  | .K => false
  | .V => true
  | .E => false
  | .D => false
  | .M => true

/-- The format has a parameter operand (R64, column ALEN). -/
def Format.hasParam : Format → Bool
  | .K => true
  | .V => true
  | .E => false
  | .D => false
  | .M => true

/-- The format has a data operand (R64, column DLEN). -/
def Format.hasData : Format → Bool
  | .K => false
  | .V => false
  | .E => false
  | .D => true
  | .M => true

/-- Why a header is illegal, one name per clause of R67. Every reason is answered alike, with IllegalCommand. -/
inductive IllegalReason where
  /-- OP is 0x0 or 0x8 to 0xF. -/
  | unusedOpcode
  /-- RSV0 is not 0. -/
  | reservedLow
  /-- RSV1 is not 0. -/
  | reservedHigh
  /-- N = 1 in format K, E or D. -/
  | absentNotAllowed
  /-- ALEN is not 0 in format E or D, or with N = 1 in format V or M. -/
  | paramNotAllowed
  /-- DLEN is not 0 in format K, V or E. -/
  | dataNotAllowed
deriving DecidableEq, Repr

/-- The "must" columns of R64 for one format, in the order of R67. -/
def Header.fieldProblem (h : Header) (f : Format) : Option IllegalReason :=
  if h.RSV0 ≠ 0 then some .reservedLow
  else if h.RSV1 ≠ 0 then some .reservedHigh
  else if f.mayBeAbsent = false ∧ h.N = 1 then some .absentNotAllowed
  else if (f.hasParam = false ∨ h.N = 1) ∧ h.ALEN ≠ 0 then some .paramNotAllowed
  else if f.hasData = false ∧ h.DLEN ≠ 0 then some .dataNotAllowed
  else none

/-- The opcode a header selects, or why it is illegal (R65, R67). -/
def Header.select (h : Header) : Except IllegalReason Opcode :=
  match opcodeOf h.OP with
  | none => .error .unusedOpcode
  | some op =>
    match h.fieldProblem op.format with
    | some why => .error why
    | none => .ok op

/-- One row of the opcode map as R65 prints it: H selects the row when `H and mask = pattern` and the further
condition holds. -/
structure OpcodeRow where
  op           : Opcode
  pattern      : BitVec 64
  mask         : BitVec 64
  /-- The further condition "N = 1 implies ALEN = 0". -/
  absentIsBare : Bool
deriving DecidableEq, Repr

/-- The opcode map of R65, row by row. The decoder works by fields (`Header.select`). -/
def opcodeTable : List OpcodeRow :=
  [ ⟨.keyinit, 0x0000000000000001, 0xFFFFFFFFFFFF00FF, false⟩,
    ⟨.ivinit,  0x0000000000000002, 0xFFFFFFFFFFFF00EF, true⟩,
    ⟨.extract, 0x0000000000000003, 0xFFFFFFFFFFFFFFFF, false⟩,
    ⟨.encrypt, 0x0000000000000004, 0x00000000FFFFFFFF, false⟩,
    ⟨.decrypt, 0x0000000000000005, 0x00000000FFFFFFFF, false⟩,
    ⟨.encmsg,  0x0000000000000006, 0x00000000FFFF00EF, true⟩,
    ⟨.decmsg,  0x0000000000000007, 0x00000000FFFF00EF, true⟩ ]

/-- A header value selects a row (R65). -/
def OpcodeRow.selects (row : OpcodeRow) (H : BitVec 64) : Bool :=
  H &&& row.mask == row.pattern
    && (!row.absentIsBare || !((Header.ofBits H).N == 1) || (Header.ofBits H).ALEN == 0)

/-- The IV operand of formats V and M: N = 1 is `none`, N = 0 is present, of any length (R64). -/
def ivOperand (h : Header) (param : List Byte) : Option (List Byte) :=
  if h.N = 1 then none else some param

/-- The abstract command of a legal frame (R64, last column). -/
def buildInstr (op : Opcode) (h : Header) (param data : List Byte) : Instr :=
  match op with
  | .keyinit => .keyinit param
  | .ivinit => .ivinit (ivOperand h param)
  | .extract => .extract
  | .encrypt => .encrypt data
  | .decrypt => .decrypt data
  | .encmsg => .encmsg (ivOperand h param) data
  | .decmsg => .decmsg (ivOperand h param) data

/-- What the decoder finds at the front of the command channel. -/
inductive Decoded where
  /-- A legal frame: its command and the bytes after the frame. -/
  | command (i : Instr) (rest : List Byte)
  /-- An illegal frame (R67), consumed whole all the same (R63). -/
  | illegal (why : IllegalReason) (rest : List Byte)
  /-- No whole frame yet: fewer than 8 header bytes, or operand bytes missing (R72). -/
  | incomplete
deriving DecidableEq, Repr

/-- Decode a frame whose header and following bytes are given apart (R63, R71). -/
def decodeBody (h : Header) (body : List Byte) : Decoded :=
  if body.length < h.operandLength then .incomplete
  else
    match h.select with
    | .error why => .illegal why (body.drop h.operandLength)
    | .ok op =>
      .command
        (buildInstr op h (body.take h.ALEN.toNat) ((body.drop h.ALEN.toNat).take h.DLEN.toNat))
        (body.drop h.operandLength)

/-- The header value of eight frame bytes, frame byte 0 being H[7:0] (R62). -/
def headerBits (header : List Byte) : BitVec 64 := BitVec.ofNat 64 (leNat header)

/-- The decoder: total on byte strings, reading the frame and nothing else (R71). -/
def decode (bytes : List Byte) : Decoded :=
  if bytes.length < Config.headerLength then .incomplete
  else
    decodeBody (Header.ofBits (headerBits (bytes.take Config.headerLength)))
      (bytes.drop Config.headerLength)

/-- The header of a command (R62, R64): the lengths of its operands, N for an absent IV, reserved bits 0. -/
def Instr.header (i : Instr) : Header :=
  { OP   := i.opcode.code
    N    := if i.ivAbsent then 1 else 0
    RSV0 := 0
    ALEN := BitVec.ofNat 8 i.paramBytes.length
    RSV1 := 0
    DLEN := BitVec.ofNat 32 i.dataBytes.length }

/-- The encoder: header bytes, parameter bytes, data bytes, in transmission order (R63). It is the frame of a
well-formed command; for the others no frame exists (R69). -/
def encode (i : Instr) : List Byte :=
  leBytes Config.headerLength i.header.toBits.toNat ++ i.paramBytes ++ i.dataBytes

/-- The frame whose bits are `w`, bit 0 the least significant bit of frame byte 0, every bit from `nbits` up being 0:
as many bytes as its header asks for (R62, R63). -/
def frameOfWord (nbits w : Nat) : List Byte :=
  let v := w % 2 ^ nbits
  let h := Header.ofBits (BitVec.ofNat 64 v)
  leBytes (Config.headerLength + h.operandLength) v

/-- The command the decoder reads from an instruction whose bits are `w` (the host's reading of the opcode table). -/
def decodeTableWord (nbits w : Nat) : Option Instr :=
  match decode (frameOfWord nbits w) with
  | .command i _ => some i
  | .illegal _ _ => none
  | .incomplete => none

end Sys2Proof
end

