-- ==== Sys2Proof/Machine/Operands.lean ====
section
/-! DEFINITION. Operand bytes to words and words to bytes (R15, R45 to R49), and the operand length checks. -/

namespace Sys2Proof.Machine

/-- The most significant half of a word (R10). -/
def hi16 (w : Word) : Half := w.extractLsb' 16 16

/-- The least significant half of a word (R10). -/
def lo16 (w : Word) : Half := w.extractLsb' 0 16

/-- MemRead(s+i, n): the little-endian value of `n` bytes from index `i` (R15). Only ever used inside the string
(log entry 12). -/
def memRead (s : List Byte) (i n : Nat) : Nat := leNat ((s.drop i).take n)

/-- Byte `i` of an operand (R15). Only ever used inside the string (log entry 12). -/
def byteAt (s : List Byte) (i : Nat) : Byte := s.getD i 0

/-- Split the key into eight little-endian subkeys (R45, R86). -/
def subkeys (key : List Byte) : Vector Half 8 :=
  Vector.ofFn fun i => BitVec.ofNat 16 (memRead key (2 * i.val) 2)

/-- One IV word, assembled little-endian from the four bytes that IVMAP names (R46, R95). -/
def ivWord (m : IvBytes) (iv : List Byte) : Word :=
  byteAt iv m.p3 ++ byteAt iv m.p2 ++ byteAt iv m.p1 ++ byteAt iv m.p0

/-- The eight words IVW of an IV (R46, R95). -/
def ivWords (cfg : Config) (iv : List Byte) : Words :=
  Vector.ofFn fun j => ivWord cfg.IVMAP[j] iv

/-- The two bytes of a halfword, low byte first (R47). -/
def lowByte (h : Half) : Byte := h.extractLsb' 0 8

/-- The high byte of a halfword (R47). -/
def highByte (h : Half) : Byte := h.extractLsb' 8 8

/-- Pack eight halfwords into sixteen bytes, each little-endian (R47). -/
def packHalves (h : Vector Half 8) : Block :=
  #v[lowByte h[0], highByte h[0], lowByte h[1], highByte h[1], lowByte h[2], highByte h[2], lowByte h[3], highByte h[3],
     lowByte h[4], highByte h[4], lowByte h[5], highByte h[5], lowByte h[6], highByte h[6], lowByte h[7], highByte h[7]]

/-- The length check of KEYINIT passes (R133). -/
def keyLengthOk (key : List Byte) : Bool := key.length == Config.keyLength

/-- The length check of IVINIT, ENCMSG and DECMSG passes: `none` always does (R134). -/
def ivLengthOk : Option (List Byte) → Bool
  | none => true
  | some iv => iv.length == Config.ivLength

end Sys2Proof.Machine
end

