-- ==== Sys2Proof/Machine/Ops.lean ====
section
/-! DEFINITION. The named operations over registers and channels, the arithmetic primitives (R11, R13), the one way a
command ends well and the one way it raises an error (R16, R140). -/

namespace Sys2Proof.Machine

/-- add32 of two terms (R11). -/
def add32 (a c : Word) : Word := a + c

/-- add32 of three terms; two wrapping additions give the same word (R12). -/
def add32x3 (a c d : Word) : Word := a + c + d

/-- Rotate left (R13). The engine uses only 8 and 16. -/
def rotl32 (w : Word) (n : Nat) : Word := w.rotateLeft n

/-- Counting `n` answered frames down to the first coming assertion of reset (log entry 6). -/
def countFrames (n : Nat) : List ResetEvent → List ResetEvent
  | [] => []
  | e :: later => { e with frames := e.frames - n } :: later

/-- The first coming assertion of reset strikes before one more frame is answered (R146, R158). -/
def resetDue : List ResetEvent → Bool
  | [] => false
  | e :: _ => e.frames == 0

namespace State

/-- The generator registers, read (R14). -/
def gen (s : State) : Generator := { X := s.X, C := s.C, b := s.b, S := s.S }

/-- The generator registers, written (R14): a micro-operation commits X, C, b and S together. -/
def setGen (s : State) (r : Generator) : State := { s with X := r.X, C := r.C, b := r.b, S := r.S }

/-- (MX, MC, Mb) <- (X, C, b), copies by value (R36, R90). -/
def snapshot (s : State) : State := { s with MX := s.X, MC := s.C, Mb := s.b }

/-- phase <- p (R31). -/
def setPhase (s : State) (p : Phase) : State := { s with phase := p }

/-- Put one response on the response channel (R61). -/
def respond (s : State) (st : Status) (out : List Byte) : State :=
  { s with responses := s.responses ++ [⟨st, out⟩] }

/-- What is coming on the input channels: command bytes (R63) and assertions of reset (R156). -/
def setInputs (s : State) (bytes : List Byte) (coming : List ResetEvent) : State :=
  { s with cmdIn := bytes, resets := coming }

/-- A frame is consumed whole (R63), and counts for the coming assertions of reset. -/
def takeFrame (s : State) (rest : List Byte) : State := s.setInputs rest (countFrames 1 s.resets)

/-- What the engine holds when reset strikes. -/
def remains (s : State) : Remains :=
  { X := s.X, C := s.C, b := s.b, MX := s.MX, MC := s.MC, Mb := s.Mb, S := s.S, phase := phaseBits s.phase,
    bytes := s.cmdIn }

/-- Reset (R156, R158): phase <- U and every other register is left with no specified value, a free value here (log
entry 4) that may depend on all the engine held, the old key among it (R157, R169). No response. The channels are the
host's. -/
def resetRegisters (s : State) : State :=
  { s with
    X     := Config.freeX s.draws s.remains
    C     := Config.freeC s.draws s.remains
    b     := Config.freeB s.draws s.remains
    MX    := Config.freeMX s.draws s.remains
    MC    := Config.freeMC s.draws s.remains
    Mb    := Config.freeMb s.draws s.remains
    S     := Config.freeS s.draws s.remains
    phase := .U
    draws := s.draws + 1 }

end State

/-- TAKING AN ERROR: the response carries the status and no byte, and no register changes (R16, R138, R140). There is
nothing to return from, so no operation returns from an error (R141). -/
def raise (e : Status) (s : State) : Result := .next (s.respond e [])

/-- respond(OK, out): a command that succeeded (R16). -/
def finish (out : List Byte) (s : State) : Result := .next (s.respond .ok out)

/-- The phase check of every command but KEYINIT (R135, R139 (2)). -/
def requireKey (s : State) (k : Result) : Result :=
  if s.phase = .U then raise .notKeyInitialized s else k

/-- The length check of KEYINIT (R133, R139 (3)). -/
def requireKeyLength (key : List Byte) (s : State) (k : Result) : Result :=
  if keyLengthOk key then k else raise .invalidKeyLength s

/-- The length check of an IV operand (R134, R139 (3)). -/
def requireIvLength (iv : Option (List Byte)) (s : State) (k : Result) : Result :=
  if ivLengthOk iv then k else raise .invalidIVLength s

end Sys2Proof.Machine
end

