-- ==== Sys2Proof/Machine/CounterUpdate.lean ====
section
/-! DEFINITION. counter_update_stage: the micro-operation CounterUpdate (R101, R102). -/

namespace Sys2Proof.Machine

/-- The carry into word `j`: the old b for word 0, the carry out of word `j - 1` for the others (R102). At 8 it is the
new b. -/
def carryInto (A C : Words) (b : Carry) : Nat → Carry
  | 0 => b
  | j + 1 => carryOut (C.getD j 0) (A.getD j 0) (carryInto A C b j)

/-- The new counter vector: word `j` takes the carry produced by word `j - 1` (R102). -/
def counterWords (A C : Words) (b : Carry) : Words :=
  Vector.ofFn fun j => counterWord C[j] A[j] (carryInto A C b j)

/-- CounterUpdate: writes C and b, from C, b and the constants A (R101, R102). -/
def counterUpdate (cfg : Config) (r : Generator) : Generator :=
  { r with C := counterWords cfg.A r.C r.b, b := carryInto cfg.A r.C r.b 8 }

end Sys2Proof.Machine
end

