-- ==== Sys2Proof/Machine/Mixer.lean ====
section
/-! DEFINITION. nonlinear_mixer_g: the micro-operations g (R107), NextState (R110) and Step (R112). -/

namespace Sys2Proof.Machine

/-- g: the sum wraps at 32 bits, the square is kept whole, its halves are folded (R107). -/
def g (u v : Word) : Word :=
  let s := add32 u v
  let sq : BitVec 64 := s.setWidth 64 * s.setWidth 64
  sq.extractLsb' 0 32 ^^^ sq.extractLsb' 32 32

/-- G[0..7], all from the old X and the C found (R110, R111). -/
def gWords (X C : Words) : Words := Vector.ofFn fun j => g X[j] C[j]

/-- The mixing of G into the new X, line by line as R110 prints it. -/
def mixWords (G : Words) : Words :=
  #v[add32x3 G[0] (rotl32 G[7] 16) (rotl32 G[6] 16),
     add32x3 G[1] (rotl32 G[0] 8) G[7],
     add32x3 G[2] (rotl32 G[1] 16) (rotl32 G[0] 16),
     add32x3 G[3] (rotl32 G[2] 8) G[1],
     add32x3 G[4] (rotl32 G[3] 16) (rotl32 G[2] 16),
     add32x3 G[5] (rotl32 G[4] 8) G[3],
     add32x3 G[6] (rotl32 G[5] 16) (rotl32 G[4] 16),
     add32x3 G[7] (rotl32 G[6] 8) G[5]]

/-- NextState: overwrites X, all eight words at once; C and b are not touched (R109, R110). -/
def nextState (r : Generator) : Generator := { r with X := mixWords (gWords r.X r.C) }

/-- Step: CounterUpdate, then NextState on the C just written (R112, R162). -/
def genStep (cfg : Config) (r : Generator) : Generator := nextState (counterUpdate cfg r)

/-- `n` Steps in a row. -/
def genSteps (cfg : Config) : Nat → Generator → Generator
  | 0, r => r
  | n + 1, r => genSteps cfg n (genStep cfg r)

/-- The four Steps of a warm-up (R88, R98). DEDUCED (log entry 13): R88 also says "sixteen word additions of A in all",
where its four Steps make 4 x 8 = 32 (R102, R172, T-KEY-1); the model makes the four Steps. -/
def warmUp (cfg : Config) (r : Generator) : Generator := genSteps cfg Config.warmUpRounds r

end Sys2Proof.Machine
end

