-- ==== Sys2Proof/Machine/Parameters.lean ====
section
/-! DEFINITION. The default instance of the two parameters: the tables of R18 and R19, which the spec marks as general
knowledge (PRESUMED; log entries 1 and 2, unsafe). The micro-operations take any Config; the commands run with this
one. -/

namespace Sys2Proof.Machine

/-- Default A[0..7] (R18). PRESUMED, log entry 1. -/
def defaultA : Words :=
  #v[0x4D34D34D, 0xD34D34D3, 0x34D34D34, 0x4D34D34D, 0xD34D34D3, 0x34D34D34, 0x4D34D34D, 0xD34D34D3]

/-- Default IVMAP[0..7] (R19). PRESUMED, log entry 2. -/
def defaultIVMAP : Vector IvBytes 8 :=
  #v[⟨0, 1, 2, 3⟩, ⟨2, 3, 6, 7⟩, ⟨4, 5, 6, 7⟩, ⟨0, 1, 4, 5⟩,
     ⟨0, 1, 2, 3⟩, ⟨2, 3, 6, 7⟩, ⟨4, 5, 6, 7⟩, ⟨0, 1, 4, 5⟩]

/-- The configuration of this engine (R8, R34). -/
def engineConfig : Config := { A := defaultA, IVMAP := defaultIVMAP }

end Sys2Proof.Machine
end

