-- ==== Sys2Proof/Machine/Extraction.lean ====
section
/-! DEFINITION. keystream_extraction_unit: the micro-operation Extraction (R117, R118) and the command EXTRACT (R116). -/

namespace Sys2Proof.Machine

/-- The pairing table h[0..7] of the output function (R118). -/
def outputHalves (X : Words) : Vector Half 8 :=
  #v[hi16 X[5] ^^^ lo16 X[0],
     lo16 X[3] ^^^ hi16 X[0],
     hi16 X[7] ^^^ lo16 X[2],
     lo16 X[5] ^^^ hi16 X[2],
     hi16 X[1] ^^^ lo16 X[4],
     lo16 X[7] ^^^ hi16 X[4],
     hi16 X[3] ^^^ lo16 X[6],
     lo16 X[1] ^^^ hi16 X[6]]

/-- The keystream block of a vector X (R118). -/
def outputBlock (X : Words) : Block := packHalves (outputHalves X)

/-- Extraction: one Step, then S is rewritten from the X that Step just wrote (R117). -/
def extraction (cfg : Config) (r : Generator) : Generator :=
  { genStep cfg r with S := outputBlock (genStep cfg r).X }

/-- respond(OK, [S[0], ..., S[15]]): a copy of S (R116, R121). -/
def finishWithBlock (s : State) : Result := finish s.S.toList s

/-- EXTRACT (R116). -/
def execExtract (s : State) : Result :=
  requireKey s (finishWithBlock (s.setGen (extraction engineConfig s.gen)))

end Sys2Proof.Machine
end

