-- ==== Sys2Proof/Machine/IvSchedule.lean ====
section
/-! DEFINITION. iv_schedule_unit: the stages of the IV schedule (R95 to R98), the absent IV (R94) and the command
IVINIT (R93). -/

namespace Sys2Proof.Machine

/-- New counter words `NC[j] = MC[j] xor IVW[j]`, from the MASTER counter (R96). -/
def newCounters (cfg : Config) (MC : Words) (iv : List Byte) : Words :=
  Vector.ofFn fun j : Fin 8 => MC[j] ^^^ (ivWords cfg iv)[j]

/-- Restore and load: X <- MX, b <- Mb, C <- NC (R97). -/
def ivLoad (cfg : Config) (iv : List Byte) (s : State) : Generator :=
  { X := s.MX, C := newCounters cfg s.MC iv, b := s.Mb, S := s.S }

/-- The IV schedule for an IV that is present: restore and load, four Steps, phase V; no re-mix (R95 to R98). -/
def ivSchedule (cfg : Config) (iv : List Byte) (s : State) : State :=
  (s.setGen (warmUp cfg (ivLoad cfg iv s))).setPhase .V

/-- Apply an IV operand: `none` writes no register, phase included (R94). -/
def applyIv (cfg : Config) : Option (List Byte) → State → State
  | none, s => s
  | some iv, s => ivSchedule cfg iv s

/-- IVINIT (R93): the phase check, then the length check, before any write (R139). -/
def execIvinit (iv : Option (List Byte)) (s : State) : Result :=
  requireKey s (requireIvLength iv s (finish [] (applyIv engineConfig iv s)))

end Sys2Proof.Machine
end

