-- ==== Sys2Proof/Machine/KeySchedule.lean ====
section
/-! DEFINITION. key_schedule_unit: the stages of the key schedule (R86 to R90) and the command KEYINIT (R85). -/

namespace Sys2Proof.Machine

/-- X[j] of Load, by the even/odd index rule, indices modulo 8 (R87). -/
def loadX (k : Vector Half 8) (j : Fin 8) : Word :=
  if j.val % 2 = 0 then k[j + 1] ++ k[j] else k[j + 5] ++ k[j + 4]

/-- C[j] of Load, by the even/odd index rule, indices modulo 8 (R87). -/
def loadC (k : Vector Half 8) (j : Fin 8) : Word :=
  if j.val % 2 = 0 then k[j + 4] ++ k[j + 5] else k[j] ++ k[j + 1]

/-- Load: X and C from the subkeys alone, b <- 0 (R87). -/
def keyLoad (key : List Byte) (r : Generator) : Generator :=
  { r with X := Vector.ofFn (loadX (subkeys key)), C := Vector.ofFn (loadC (subkeys key)), b := 0 }

/-- Counter re-mix: `C[j] <- C[j] xor X[(j+4) mod 8]` (R89). -/
def counterRemix (r : Generator) : Generator :=
  { r with C := Vector.ofFn fun j : Fin 8 => r.C[j] ^^^ r.X[j + 4] }

/-- The generator after Load, four Steps and the re-mix (R87 to R89). -/
def keyedGenerator (cfg : Config) (key : List Byte) (r : Generator) : Generator :=
  counterRemix (warmUp cfg (keyLoad key r))

/-- The key schedule: Load, four Steps, re-mix, then snapshot and phase K (R85 to R90). -/
def keySchedule (cfg : Config) (key : List Byte) (s : State) : State :=
  (s.setGen (keyedGenerator cfg key s.gen)).snapshot.setPhase .K

/-- KEYINIT (R85): its length check is its only check (R133, R139). -/
def execKeyinit (key : List Byte) (s : State) : Result :=
  requireKeyLength key s (finish [] (keySchedule engineConfig key s))

end Sys2Proof.Machine
end

