-- ==== Sys2Proof/Machine/StreamCipher.lean ====
section
/-! DEFINITION. The stream XOR data path: the micro-operation Crypt (R123) and the commands ENCRYPT (R122), DECRYPT
(R127), ENCMSG (R128), DECMSG (R129). -/

namespace Sys2Proof.Machine

/-- The generator with which data byte `i` is xored: a fresh Extraction where `i mod 16 = 0` (R123). -/
def refill (cfg : Config) (i : Nat) (r : Generator) : Generator :=
  if i % Config.blockLength = 0 then extraction cfg r else r

/-- The keystream byte for data byte `i`: `S[i mod 16]` (R123). -/
def keystreamByte (r : Generator) (i : Nat) : Byte := r.S.getD (i % Config.blockLength) 0

/-- Crypt's loop from data byte `i` on: the result bytes and the generator (R123). -/
def cryptFrom (cfg : Config) : Nat → List Byte → Generator → List Byte × Generator
  | _, [], r => ([], r)
  | i, d :: ds, r =>
    let t := refill cfg i r
    let later := cryptFrom cfg (i + 1) ds t
    ((d ^^^ keystreamByte t i) :: later.1, later.2)

/-- Crypt: the byte index starts at 0 in every command (R123, R125). -/
def crypt (cfg : Config) (data : List Byte) (r : Generator) : List Byte × Generator := cryptFrom cfg 0 data r

/-- respond(OK, Crypt(data)) (R122, R126). -/
def finishCrypt (cfg : Config) (data : List Byte) (s : State) : Result :=
  finish (crypt cfg data s.gen).1 (s.setGen (crypt cfg data s.gen).2)

/-- The shared body of ENCRYPT and DECRYPT (R122, R127). -/
def bufferCommand (cfg : Config) (data : List Byte) (s : State) : Result :=
  requireKey s (finishCrypt cfg data s)

/-- The shared body of ENCMSG and DECMSG: both checks come before any write (R128, R129). DEDUCED (log entry 14): with an
IV present the command restarts from the master snapshot, so repeating it reproduces the same keystream (R128, R166),
where R53 says that repeating ENCMSG or DECMSG yields the next bytes. -/
def messageCommand (cfg : Config) (iv : Option (List Byte)) (data : List Byte) (s : State) : Result :=
  requireKey s (requireIvLength iv s (finishCrypt cfg data (applyIv cfg iv s)))

/-- ENCRYPT (R122). -/
def execEncrypt (data : List Byte) (s : State) : Result := bufferCommand engineConfig data s

/-- DECRYPT (R127). -/
def execDecrypt (data : List Byte) (s : State) : Result := bufferCommand engineConfig data s

/-- ENCMSG (R128). -/
def execEncmsg (iv : Option (List Byte)) (data : List Byte) (s : State) : Result :=
  messageCommand engineConfig iv data s

/-- DECMSG (R129). -/
def execDecmsg (iv : Option (List Byte)) (data : List Byte) (s : State) : Result :=
  messageCommand engineConfig iv data s

end Sys2Proof.Machine
end

