-- ==== Sys2Proof/Machine/Dispatch.lean ====
section
/-! DEFINITION. One arm per command (R60). -/

namespace Sys2Proof.Machine

def exec (i : Instr) (s : State) : Host.Outcome State Fault Refusal :=
  match i with
  | .keyinit key => Sys2Proof.Machine.execKeyinit key s
  | .ivinit iv => Sys2Proof.Machine.execIvinit iv s
  | .extract => Sys2Proof.Machine.execExtract s
  | .encrypt data => Sys2Proof.Machine.execEncrypt data s
  | .decrypt data => Sys2Proof.Machine.execDecrypt data s
  | .encmsg iv data => Sys2Proof.Machine.execEncmsg iv data s
  | .decmsg iv data => Sys2Proof.Machine.execDecmsg iv data s

end Sys2Proof.Machine
end

