-- ==== Sys2Proof/Machine/Fetch.lean ====
section
/-! DEFINITION. Taking frames and resets off the interface (R63, R72, R146, R156, R158), around the execution of a
command. -/

namespace Sys2Proof.Machine

/-- An illegal frame: no state change, IllegalCommand (R67, R136). -/
def rejectFrame (s : State) : Result := raise .illegalCommand s

/-- Reset is asserted (R146, R156, R158): the frame being received or executed is abandoned without a response, the
registers are reset, and the host goes on with the bytes it presents after it. -/
def assertReset (e : ResetEvent) (later : List ResetEvent) (s : State) : Result :=
  .next (s.resetRegisters.setInputs e.bytes later)

/-- No command is carried out: the engine waits, its state unchanged (R72, R155), or reset is asserted if an assertion
is coming. -/
def awaitFrame (s : State) : Result :=
  match s.resets with
  | [] => .next s
  | e :: later => assertReset e later s

/-- One more frame comes before the first coming assertion of reset. -/
def delayReset : List ResetEvent → List ResetEvent
  | [] => []
  | e :: later => { e with frames := e.frames + 1 } :: later

/-- Present a frame to the engine: its bytes stand at the front of the command channel, before any coming assertion of
reset. -/
def presentFrame (bytes : List Byte) (s : State) : State := s.setInputs (bytes ++ s.cmdIn) (delayReset s.resets)

end Sys2Proof.Machine
end

