-- ==== Sys2Proof/Machine/Step.lean ====
section
/-! DEFINITION. One step of the machine: one whole command, one illegal frame, one reset, or idling (R20, R51). -/

namespace Sys2Proof.Machine

/-- Reset wins over whatever stands on the command channel (R146). Else decode the front of the channel and carry it
out. -/
def step (s : State) : Host.Outcome State Fault Refusal :=
  if resetDue s.resets then awaitFrame s
  else
    match decode s.cmdIn with
    | .command i rest => exec i (s.takeFrame rest)
    | .illegal _ rest => rejectFrame (s.takeFrame rest)
    | .incomplete => awaitFrame s

/-- The state with the instruction whose bits are `w` as its next frame: what the host does when it presents a
command (log entry 5). -/
def State.withFetchWord (s : State) (nbits w : Nat) : State := presentFrame (frameOfWord nbits w) s

end Sys2Proof.Machine
end

