-- ==== Sys2Proof/Machine/ResponseFrame.lean ====
section
/-! DEFINITION. Response frames (R70) and status codes (R132). -/

namespace Sys2Proof.Machine

/-- The number of a status (R132). Codes 5 to 255 are never produced. -/
def statusCode : Status → Byte
  | .ok => 0
  | .invalidKeyLength => 1
  | .invalidIVLength => 2
  | .notKeyInitialized => 3
  | .illegalCommand => 4

/-- The header value Q of a response: STATUS, reserved zeros, RLEN (R70). -/
def responseHeader (r : Response) : BitVec 64 :=
  BitVec.ofNat 32 r.out.length ++ (0 : BitVec 24) ++ statusCode r.status

/-- The bytes of a response in transmission order (R70). -/
def responseFrame (r : Response) : List Byte :=
  leBytes Config.headerLength (responseHeader r).toNat ++ r.out

/-- The bytes that have crossed the response channel (R70, R171). -/
def responseBytes (s : State) : List Byte := s.responses.flatMap responseFrame

end Sys2Proof.Machine
end

