-- ==== Sys2Proof/Safety.lean ====
section
/-! DEFINITION. What counts as a good state and a safe step, in the terms the statements use. -/

namespace Sys2Proof.Safety

open Sys2Proof.Machine

/-- A step that goes on: neither a fault nor a refusal (R147, R171). -/
def Goes (s : State) : Prop := ∃ t, step s = .next t

/-- The working registers X, C, b of two generators are the same; S is left out (R30). -/
def SameWorking (r q : Generator) : Prop := r.X = q.X ∧ r.C = q.C ∧ r.b = q.b

/-- The working state X, C, b of two states is the same. -/
def SameGenerator (s t : State) : Prop := SameWorking s.gen t.gen

/-- The master snapshot of two states is the same (R29). -/
def SameMaster (s t : State) : Prop := s.MX = t.MX ∧ s.MC = t.MC ∧ s.Mb = t.Mb

/-- The generator copied back from the master snapshot: where KEYINIT leaves it (R90). -/
def atMaster (s : State) : Generator := { X := s.MX, C := s.MC, b := s.Mb, S := s.S }

/-- The master snapshot is what some KEYINIT with a 16-byte key computed (R35 (d), R90). -/
def MasterFromKey (cfg : Config) (s : State) : Prop :=
  ∃ key before, key.length = 16 ∧ SameMaster s (keySchedule cfg key before)

/-- In phase K the working state is some number of Steps after the master snapshot; in phase V it is some number of
Steps after the IV schedule of some 8-byte IV (R31, R90, R97, R98). -/
def OnKeystream (cfg : Config) (s : State) : Prop :=
  match s.phase with
  | .U => True
  | .K => ∃ n, SameWorking s.gen (genSteps cfg n (atMaster s))
  | .V => ∃ iv n, iv.length = 8 ∧ SameWorking s.gen (genSteps cfg n (ivSchedule cfg iv s).gen)

/-- The lifecycle invariant: outside phase U the engine holds a key's master snapshot, and its working state stands on
a keystream of that key (R35 (c), (d)). -/
def Lifecycle (cfg : Config) (s : State) : Prop :=
  s.phase ≠ .U → MasterFromKey cfg s ∧ OnKeystream cfg s

/-- Every response that reports an error carries no result byte (R61, R138). -/
def ErrorsCarryNothing (s : State) : Prop := ∀ r ∈ s.responses, r.status ≠ .ok → r.out = []

/-- What the host can tell apart: two states with the same channels and phase, whose key-derived registers agree
outside phase U. S is left out (R30), and in phase U every register (R38, R157). -/
def HostEquivalent (s t : State) : Prop :=
  s.cmdIn = t.cmdIn ∧ s.resets = t.resets ∧ s.responses = t.responses ∧ s.phase = t.phase ∧
    (s.phase ≠ .U → SameGenerator s t ∧ SameMaster s t)

end Sys2Proof.Safety
end

