-- ==== Sys2Proof/Certificates/Slice0/Obligations.lean ====
section
/-! DEFINITION. The statements for the provers, from the numbered rules of spec/. Where a statement names
`engineConfig`, it does so because `exec` runs with it: none rests on the values of A or IVMAP (log entries 1 and 2),
and none on the register values of `State.reset` (log entry 3). -/

open Sys2Proof Sys2Proof.Machine Sys2Proof.Safety

namespace Sys2Proof.Reference

/-- rotl32 as R13 prints it, over the naturals. -/
def rotl (w n : Nat) : Nat := (w * 2 ^ n) % 2 ^ 32 + w / 2 ^ (32 - n)

/-- g as R107 prints it, over the naturals: the sum modulo 2^32, the exact square, the two halves folded. -/
def g (u v : Nat) : Nat :=
  let sq := ((u + v) % 2 ^ 32) * ((u + v) % 2 ^ 32)
  (sq % 2 ^ 32) ^^^ (sq / 2 ^ 32)

/-- The value of a vector of words as one 256-bit number, word 0 least significant (R104). -/
def wide (w : Words) : Nat := ∑ j : Fin 8, w[j].toNat * 2 ^ (32 * j.val)

/-- The generator as integers: eight words of X, the counter as one 256-bit number, the carry. -/
structure Gen where
  X : Fin 8 → Nat
  C : Nat
  b : Nat

/-- The integers the generator registers stand for. -/
def ofGenerator (r : Generator) : Gen := ⟨fun j => r.X[j].toNat, wide r.C, r.b.toNat⟩

/-- One Step in integers: the counter by one wide addition (R104), then X by the closed form of R111. -/
def next (A : Nat) (r : Gen) : Gen :=
  let T := r.C + A + r.b
  let C := T % 2 ^ 256
  let G : Fin 8 → Nat := fun j => g (r.X j) (C / 2 ^ (32 * j.val) % 2 ^ 32)
  { X := fun j =>
      if j.val % 2 = 0 then (G j + rotl (G (j + 7)) 16 + rotl (G (j + 6)) 16) % 2 ^ 32
      else (G j + rotl (G (j + 7)) 8 + G (j + 6)) % 2 ^ 32
    C := C
    b := T / 2 ^ 256 }

/-- Commands carried out one after another (R56). -/
def perform : List Instr → State → Result
  | [], s => .next s
  | i :: is, s =>
    match exec i s with
    | .next t => perform is t
    | .fault f => .fault f
    | .refused r => .refused r

end Sys2Proof.Reference

/-! ### Frames (30_encoding.md) -/

/-- R62: a frame is an 8-byte header and the operand bytes, and the header layout, byte by byte. -/
def Obligations.HeaderBytesGiveFields : Prop :=
  (∀ b0 b1 b2 b3 b4 b5 b6 b7 : Byte,
    Header.ofBits (headerBits [b0, b1, b2, b3, b4, b5, b6, b7]) =
      { OP   := b0.extractLsb' 0 4
        N    := b0.extractLsb' 4 1
        RSV0 := b0.extractLsb' 5 3
        ALEN := b1
        RSV1 := b3 ++ b2
        DLEN := b7 ++ b6 ++ b5 ++ b4 }) ∧
  (∀ i : Instr, i.wf = true →
    ∃ header : List Byte, header.length = 8 ∧ encode i = header ++ i.paramBytes ++ i.dataBytes ∧
      let h := Header.ofBits (headerBits header)
      h.ALEN.toNat = i.paramBytes.length ∧ h.DLEN.toNat = i.dataBytes.length ∧ (h.N = 1 ↔ i.ivAbsent = true) ∧
        h.RSV0 = 0 ∧ h.RSV1 = 0)

/-- R65: a header selects an opcode exactly when a row of the opcode map selects it; at most one row does; the OP
values 0 and 8 to 15 select none. -/
def Obligations.HeaderSelectionMatchesOpcodeMap : Prop :=
  (∀ (H : BitVec 64) (op : Opcode),
    (Header.ofBits H).select = .ok op ↔ ∃ row ∈ opcodeTable, row.op = op ∧ row.selects H = true) ∧
  (∀ H : BitVec 64, ∀ row ∈ opcodeTable, ∀ other ∈ opcodeTable,
    row.selects H = true → other.selects H = true → row = other) ∧
  (∀ (H : BitVec 64) (op : Opcode), (Header.ofBits H).OP = 0 ∨ 8 ≤ (Header.ofBits H).OP.toNat →
    (Header.ofBits H).select ≠ .ok op)

/-- From R67: exactly these headers are illegal, and a whole frame with one is consumed, changes no state and is answered
IllegalCommand with empty result, in every phase. The form of the command channel (log entry 5), the premise `resetDue`
and the counting of the frame in `resets` (log entry 6) are the model's choice. Reset, where it strikes first, wins
(`ResetAbandonsFrame`). -/
def Obligations.IllegalHeadersAreRejected : Prop :=
  ∀ (H : BitVec 64) (body : List Byte) (s : State),
    let h := Header.ofBits H
    let op := h.OP.toNat
    s.cmdIn = leBytes 8 H.toNat ++ body → h.ALEN.toNat + h.DLEN.toNat ≤ body.length → resetDue s.resets = false →
    ((op = 0 ∨ 8 ≤ op) ∨ h.RSV0 ≠ 0 ∨ h.RSV1 ≠ 0 ∨
      (h.N = 1 ∧ (op = 1 ∨ op = 3 ∨ op = 4 ∨ op = 5)) ∨
      (h.ALEN ≠ 0 ∧ (op = 3 ∨ op = 4 ∨ op = 5)) ∨
      (h.ALEN ≠ 0 ∧ h.N = 1 ∧ (op = 2 ∨ op = 6 ∨ op = 7)) ∨
      (h.DLEN ≠ 0 ∧ (op = 1 ∨ op = 2 ∨ op = 3)) →
      step s = .next
        { s with
          cmdIn := body.drop (h.ALEN.toNat + h.DLEN.toNat)
          resets := countFrames 1 s.resets
          responses := s.responses ++ [⟨.illegalCommand, []⟩] }) ∧
    (¬ ((op = 0 ∨ 8 ≤ op) ∨ h.RSV0 ≠ 0 ∨ h.RSV1 ≠ 0 ∨
      (h.N = 1 ∧ (op = 1 ∨ op = 3 ∨ op = 4 ∨ op = 5)) ∨
      (h.ALEN ≠ 0 ∧ (op = 3 ∨ op = 4 ∨ op = 5)) ∨
      (h.ALEN ≠ 0 ∧ h.N = 1 ∧ (op = 2 ∨ op = 6 ∨ op = 7)) ∨
      (h.DLEN ≠ 0 ∧ (op = 1 ∨ op = 2 ∨ op = 3))) →
      ∃ i, step s = exec i
        { s with cmdIn := body.drop (h.ALEN.toNat + h.DLEN.toNat), resets := countFrames 1 s.resets })

/-- Sanity, from the worked encodings of 30_encoding.md section 3: each frame decodes to the command printed beside it. -/
def Obligations.WorkedFramesDecode : Prop :=
  decode ([0x01, 0x10, 0, 0, 0, 0, 0, 0] ++ List.replicate 16 0) = .command (.keyinit (List.replicate 16 0)) [] ∧
  decode [0x02, 0x08, 0, 0, 0, 0, 0, 0, 0x00, 0x11, 0x22, 0x33, 0x44, 0x55, 0x66, 0x77] =
    .command (.ivinit (some [0x00, 0x11, 0x22, 0x33, 0x44, 0x55, 0x66, 0x77])) [] ∧
  decode [0x12, 0, 0, 0, 0, 0, 0, 0] = .command (.ivinit none) [] ∧
  decode [0x03, 0, 0, 0, 0, 0, 0, 0] = .command .extract [] ∧
  decode [0x04, 0, 0, 0, 0x05, 0, 0, 0, 0x68, 0x65, 0x6C, 0x6C, 0x6F] =
    .command (.encrypt [0x68, 0x65, 0x6C, 0x6C, 0x6F]) [] ∧
  decode [0x05, 0, 0, 0, 0, 0, 0, 0] = .command (.decrypt []) [] ∧
  decode ([0x06, 0x08, 0, 0, 0x02, 0, 0, 0] ++ List.replicate 8 0 ++ [0xAA, 0xBB]) =
    .command (.encmsg (some (List.replicate 8 0)) [0xAA, 0xBB]) [] ∧
  decode [0x17, 0, 0, 0, 0x02, 0, 0, 0, 0xAA, 0xBB] = .command (.decmsg none [0xAA, 0xBB]) []

/-- Decode after encode: every command that has a frame is read back from it, whatever follows the frame. -/
def Obligations.DecodeOfEncodeIsCommand : Prop :=
  ∀ (i : Instr) (rest : List Byte), i.wf = true → decode (encode i ++ rest) = .command i rest

/-- Encode after decode: a command is read from exactly one frame, and only from a frame. -/
def Obligations.DecodedCommandHasOneFrame : Prop :=
  ∀ (bytes rest : List Byte) (i : Instr),
    decode bytes = .command i rest → i.wf = true ∧ bytes = encode i ++ rest

/-- A step that reset does not strike runs the command at the front of the command channel, having consumed its frame,
which counts for the coming reset, and nothing else. The forms of the channels are the model's choice (log entries 5 and
6); a step that reset strikes is `ResetAbandonsFrame`. -/
def Obligations.StepRunsDecodedCommand : Prop :=
  ∀ (i : Instr) (rest : List Byte) (s : State),
    i.wf = true → s.cmdIn = encode i ++ rest → resetDue s.resets = false →
    step s = exec i { s with cmdIn := rest, resets := countFrames 1 s.resets }

/-- A word of the opcode table, presented as the next frame, runs as the next step (`withFetchWord` is the model's, log
entry 5). -/
def Obligations.PresentedWordRunsNext : Prop :=
  ∀ (nbits w : Nat) (i : Instr) (s : State),
    decodeTableWord nbits w = some i → step (s.withFetchWord nbits w) = exec i s

/-- A frame that is not whole: the engine waits, and only reset ends the wait. The channel's form is the model's (log
entries 5, 6, 7). -/
def Obligations.PartialFrameWaitsOrIsReset : Prop :=
  ∀ (H : BitVec 64) (body : List Byte) (s : State),
    (s.cmdIn.length < 8 ∨
      (s.cmdIn = leBytes 8 H.toNat ++ body ∧
        body.length < (Header.ofBits H).ALEN.toNat + (Header.ofBits H).DLEN.toNat)) →
    (s.resets = [] → step s = .next s) ∧
    (∀ e later, s.resets = e :: later →
      ∃ t, step s = .next t ∧ t.phase = .U ∧ t.responses = s.responses ∧ t.cmdIn = e.bytes ∧ t.resets = later)

/-- Reset against a command: where an assertion is due, a frame that is being received or executed is abandoned, whatever
it is and in every phase: no response, phase U, free values in every other register, which may depend on all the engine
held. The form of the reset input, the bytes that follow and the free values are the model's (log entries 4 and 6). -/
def Obligations.ResetAbandonsFrame : Prop :=
  ∀ (bytes : List Byte) (later : List ResetEvent) (s : State), s.resets = ⟨0, bytes⟩ :: later →
    step s = .next
      { X := Config.freeX s.draws s.remains, C := Config.freeC s.draws s.remains, b := Config.freeB s.draws s.remains,
        MX := Config.freeMX s.draws s.remains, MC := Config.freeMC s.draws s.remains,
        Mb := Config.freeMb s.draws s.remains, S := Config.freeS s.draws s.remains, phase := .U, cmdIn := bytes, resets := later, responses := s.responses,
        draws := s.draws + 1 }

/-- Reset is the only way a command can fail to complete: a whole frame, legal or not, is answered with exactly one
response in the step that takes it, or reset strikes in that step and it is answered with none. When reset strikes
(`resetDue`) is in the model's form (log entry 6). -/
def Obligations.OnlyResetStopsAFrame : Prop :=
  ∀ s t : State, decode s.cmdIn ≠ .incomplete → step s = .next t →
    (resetDue s.resets = true ∧ t.phase = .U ∧ t.responses = s.responses) ∨
    (resetDue s.resets = false ∧ ∃ r, t.responses = s.responses ++ [r])

/-- The state after reset: phase U, nothing answered, idle. That idling is a step that changes nothing is the model's
choice (log entry 7). -/
def Obligations.ResetStartsUninitialized : Prop :=
  State.reset.phase = .U ∧ State.reset.responses = [] ∧ step State.reset = .next State.reset

/-- The engine never halts: every step from every state answers a next state (with no whole frame, an unchanged one: log
entry 7). -/
def Obligations.EveryStepGoesOn : Prop :=
  ∀ s : State, Goes s

/-- R70: the bytes of a response whose result a frame can carry, and that an error's response has no result byte. -/
def Obligations.ResponseFrameLayout : Prop :=
  (∀ r : Response, ∃ Q : BitVec 64,
    responseFrame r = leBytes 8 Q.toNat ++ r.out ∧ (responseFrame r).length = 8 + r.out.length ∧
    (Q.extractLsb' 0 8).toNat =
      (match r.status with
        | .ok => 0
        | .invalidKeyLength => 1
        | .invalidIVLength => 2
        | .notKeyInitialized => 3
        | .illegalCommand => 4) ∧
    Q.extractLsb' 8 24 = 0 ∧ (r.out.length < 2 ^ 32 → (Q.extractLsb' 32 32).toNat = r.out.length)) ∧
  (∀ (s t : State) (r : Response), step s = .next t → t.responses = s.responses ++ [r] → r.status ≠ .ok → r.out = [])

/-! ### The generator (42, 43, 44) -/

/-- R103: the counter sum needs 33 bits and no more, and its carry is its high bit. -/
def Obligations.CounterCarryIsAtMostOne : Prop :=
  ∀ (c a : Word) (b : Carry),
    let temp := c.toNat + a.toNat + b.toNat
    temp ≤ 2 ^ 33 - 1 ∧ (temp / 2 ^ 32 = 0 ∨ temp / 2 ^ 32 = 1) ∧
      (counterSum c a b).toNat = temp ∧ (counterWord c a b).toNat = temp % 2 ^ 32 ∧
      (carryOut c a b).toNat = temp / 2 ^ 32

/-- R102: CounterUpdate, word by word, each word taking the carry of the one below; nothing but C and b is written. -/
def Obligations.CounterUpdateRipplesCarry : Prop :=
  ∀ (cfg : Config) (r : Generator), ∃ carry : Nat → Nat,
    carry 0 = r.b.toNat ∧
    (∀ j : Fin 8,
      ((counterUpdate cfg r).C[j]).toNat = (r.C[j].toNat + cfg.A[j].toNat + carry j.val) % 2 ^ 32 ∧
      carry (j.val + 1) = (r.C[j].toNat + cfg.A[j].toNat + carry j.val) / 2 ^ 32) ∧
    (counterUpdate cfg r).b.toNat = carry 8 ∧
    counterUpdate cfg r = { r with C := (counterUpdate cfg r).C, b := (counterUpdate cfg r).b }

/-- CounterUpdate is one 256-bit addition with carry in and carry out. -/
def Obligations.CounterUpdateIsOneWideAddition : Prop :=
  ∀ (cfg : Config) (r : Generator),
    let T := Reference.wide r.C + Reference.wide cfg.A + r.b.toNat
    Reference.wide (counterUpdate cfg r).C = T % 2 ^ 256 ∧ (counterUpdate cfg r).b.toNat = T / 2 ^ 256

/-- R13: rotl32 over the naturals, and as bits; a rotation by 16 swaps the halves. -/
def Obligations.RotationFormula : Prop :=
  (∀ (w : Word) (n : Nat), 0 < n → n < 32 → (rotl32 w n).toNat = Reference.rotl w.toNat n) ∧
  (∀ (w : Word) (n i : Nat), 0 < n → n < 32 → i < 32 →
    (rotl32 w n).getLsbD i = w.getLsbD (if i < n then i + 32 - n else i - n)) ∧
  (∀ w : Word, rotl32 w 16 = lo16 w ++ hi16 w)

/-- R107: g, with the sum wrapped and the square whole; symmetric, and a function of the sum alone. -/
def Obligations.MixerFoldsWholeSquare : Prop :=
  ∀ u v : Word,
    (g u v).toNat = Reference.g u.toNat v.toNat ∧ g u v = g v u ∧ g u v = g (add32 u v) 0

/-- R110: NextState, line by line, from the old X and C; nothing but X is written. -/
def Obligations.NextStateMixesOldWords : Prop :=
  ∀ q : Generator,
    let G : Fin 8 → Nat := fun j => Reference.g q.X[j].toNat q.C[j].toNat
    let r := Reference.rotl
    let t := nextState q
    t.X[0].toNat = (G 0 + r (G 7) 16 + r (G 6) 16) % 2 ^ 32 ∧
    t.X[1].toNat = (G 1 + r (G 0) 8 + G 7) % 2 ^ 32 ∧
    t.X[2].toNat = (G 2 + r (G 1) 16 + r (G 0) 16) % 2 ^ 32 ∧
    t.X[3].toNat = (G 3 + r (G 2) 8 + G 1) % 2 ^ 32 ∧
    t.X[4].toNat = (G 4 + r (G 3) 16 + r (G 2) 16) % 2 ^ 32 ∧
    t.X[5].toNat = (G 5 + r (G 4) 8 + G 3) % 2 ^ 32 ∧
    t.X[6].toNat = (G 6 + r (G 5) 16 + r (G 4) 16) % 2 ^ 32 ∧
    t.X[7].toNat = (G 7 + r (G 6) 8 + G 5) % 2 ^ 32 ∧
    t = { q with X := t.X }

/-- Headline: any number of Steps of the bit-vector generator are that many Steps of the integer generator, whose
counter is one wide number and whose mixing is the closed form. -/
def Obligations.GeneratorRefinesIntegers : Prop :=
  ∀ (cfg : Config) (n : Nat) (r : Generator),
    Reference.ofGenerator (genSteps cfg n r) = (Reference.next (Reference.wide cfg.A))^[n] (Reference.ofGenerator r)

/-- R118: the keystream block, byte by byte, from the two halves of X each halfword pairs. -/
def Obligations.OutputFunctionPairsHalves : Prop :=
  ∀ X : Words,
    let low : Fin 8 → Byte := fun j => X[j].extractLsb' 0 8
    let lowHigh : Fin 8 → Byte := fun j => X[j].extractLsb' 8 8
    let highLow : Fin 8 → Byte := fun j => X[j].extractLsb' 16 8
    let high : Fin 8 → Byte := fun j => X[j].extractLsb' 24 8
    outputBlock X =
      #v[highLow 5 ^^^ low 0, high 5 ^^^ lowHigh 0,
         low 3 ^^^ highLow 0, lowHigh 3 ^^^ high 0,
         highLow 7 ^^^ low 2, high 7 ^^^ lowHigh 2,
         low 5 ^^^ highLow 2, lowHigh 5 ^^^ high 2,
         highLow 1 ^^^ low 4, high 1 ^^^ lowHigh 4,
         low 7 ^^^ highLow 4, lowHigh 7 ^^^ high 4,
         highLow 3 ^^^ low 6, high 3 ^^^ lowHigh 6,
         low 1 ^^^ highLow 6, lowHigh 1 ^^^ high 6]

/-! ### KEYINIT (40) -/

/-- From R85 to R90: KEYINIT with a 16-byte key completes in every phase: split, load (the table written out), four Steps,
re-mix, snapshot, phase K. S and the channels but for the response are unchanged. The four full Steps, 32 additions of A,
are the model's reading of R88, which also counts sixteen (log entry 13, DEDUCED). -/
def Obligations.KeyinitComputesMasterState : Prop :=
  ∀ (key : List Byte) (s : State), key.length = 16 →
    ∃ k : Fin 8 → Half,
      (∀ i : Fin 8, (k i).toNat = (key.getD (2 * i.val) 0).toNat + 2 ^ 8 * (key.getD (2 * i.val + 1) 0).toNat) ∧
      let l : Generator :=
        { S := s.S
          X := #v[k 1 ++ k 0, k 6 ++ k 5, k 3 ++ k 2, k 0 ++ k 7, k 5 ++ k 4, k 2 ++ k 1, k 7 ++ k 6, k 4 ++ k 3]
          C := #v[k 4 ++ k 5, k 1 ++ k 2, k 6 ++ k 7, k 3 ++ k 4, k 0 ++ k 1, k 5 ++ k 6, k 2 ++ k 3, k 7 ++ k 0]
          b := 0 }
      let w := genSteps engineConfig 4 l
      let C : Words :=
        #v[w.C[0] ^^^ w.X[4], w.C[1] ^^^ w.X[5], w.C[2] ^^^ w.X[6], w.C[3] ^^^ w.X[7],
           w.C[4] ^^^ w.X[0], w.C[5] ^^^ w.X[1], w.C[6] ^^^ w.X[2], w.C[7] ^^^ w.X[3]]
      exec (.keyinit key) s = .next
        { s with
          X := w.X, C := C, b := w.b, MX := w.X, MC := C, Mb := w.b, phase := .K,
          responses := s.responses ++ [⟨.ok, []⟩] }

/-- R133: any other key length is InvalidKeyLength in any phase, and nothing changes; it is KEYINIT's only error. -/
def Obligations.KeyinitRejectsWrongLength : Prop :=
  ∀ (key : List Byte) (s : State),
    (key.length ≠ 16 →
      exec (.keyinit key) s = .next { s with responses := s.responses ++ [⟨.invalidKeyLength, []⟩] }) ∧
    (key.length = 16 →
      ∃ t, exec (.keyinit key) s = .next t ∧ t.responses = s.responses ++ [⟨.ok, []⟩])

/-- The state after KEYINIT depends on the key alone: two runs from any two states agree. -/
def Obligations.KeyinitForgetsOldState : Prop :=
  ∀ (key : List Byte) (s t : State), key.length = 16 →
    ∃ u v, exec (.keyinit key) s = .next u ∧ exec (.keyinit key) t = .next v ∧
      SameGenerator u v ∧ SameMaster u v ∧ u.phase = .K ∧ v.phase = .K

/-! ### IVINIT (41) -/

/-- R94: `IVINIT none` in phase K or V writes no register and answers OK; an IV present with length 0 is not `none`. -/
def Obligations.IvinitNoneChangesNothing : Prop :=
  ∀ s : State, s.phase ≠ .U →
    exec (.ivinit none) s = .next { s with responses := s.responses ++ [⟨.ok, []⟩] } ∧
    exec (.ivinit (some [])) s = .next { s with responses := s.responses ++ [⟨.invalidIVLength, []⟩] }

/-- R46, R96 to R98: IVINIT with an 8-byte IV completes in phases K and V: new counters from MC and the IV words, restore
of X and b, four Steps, phase V. MX, MC, Mb and S are unchanged. -/
def Obligations.IvinitRestartsFromMaster : Prop :=
  ∀ (iv : List Byte) (s : State), s.phase ≠ .U → iv.length = 8 →
    ∃ IVW : Fin 8 → Word,
      (∀ j : Fin 8, (IVW j).toNat =
        (iv.getD (engineConfig.IVMAP[j]).p0.val 0).toNat +
        2 ^ 8 * (iv.getD (engineConfig.IVMAP[j]).p1.val 0).toNat +
        2 ^ 16 * (iv.getD (engineConfig.IVMAP[j]).p2.val 0).toNat +
        2 ^ 24 * (iv.getD (engineConfig.IVMAP[j]).p3.val 0).toNat) ∧
      let l : Generator :=
        { S := s.S, X := s.MX, b := s.Mb,
          C := #v[s.MC[0] ^^^ IVW 0, s.MC[1] ^^^ IVW 1, s.MC[2] ^^^ IVW 2, s.MC[3] ^^^ IVW 3,
                  s.MC[4] ^^^ IVW 4, s.MC[5] ^^^ IVW 5, s.MC[6] ^^^ IVW 6, s.MC[7] ^^^ IVW 7] }
      let w := genSteps engineConfig 4 l
      exec (.ivinit (some iv)) s = .next
        { s with X := w.X, C := w.C, b := w.b, phase := .V, responses := s.responses ++ [⟨.ok, []⟩] }

/-- R134: a present IV of another length is InvalidIVLength in phases K and V, and nothing changes; `none` and an IV of
8 bytes never are, nor is any command in phase U. -/
def Obligations.WrongIvLengthIsRejected : Prop :=
  ∀ (iv : Option (List Byte)) (data : List Byte) (i : Instr) (s : State),
    (i = .ivinit iv ∨ i = .encmsg iv data ∨ i = .decmsg iv data) →
    (∀ bytes, iv = some bytes → bytes.length ≠ 8 → s.phase ≠ .U →
      exec i s = .next { s with responses := s.responses ++ [⟨.invalidIVLength, []⟩] }) ∧
    ((s.phase = .U ∨ iv = none ∨ ∃ bytes, iv = some bytes ∧ bytes.length = 8) →
      ∃ t r, exec i s = .next t ∧ t.responses = s.responses ++ [r] ∧ r.status ≠ .invalidIVLength)

/-- The IV schedule reads the master snapshot and the IV alone, so keystream drawn or IVs applied before leave no trace,
and the snapshot is untouched. -/
def Obligations.MasterIsolation : Prop :=
  ∀ (iv : List Byte) (s t : State), s.phase ≠ .U → t.phase ≠ .U → SameMaster s t → iv.length = 8 →
    ∃ u v, exec (.ivinit (some iv)) s = .next u ∧ exec (.ivinit (some iv)) t = .next v ∧
      SameGenerator u v ∧ SameMaster u s ∧ SameMaster v t ∧ u.phase = .V ∧ v.phase = .V

/-- With the all-zero IV, IVINIT after KEYINIT leaves X, C, b as four EXTRACTs after KEYINIT do, for any key. -/
def Obligations.ZeroIvEqualsFourExtracts : Prop :=
  ∀ (key : List Byte) (s : State), key.length = 16 →
    ∃ a e, Reference.perform [.keyinit key, .ivinit (some (List.replicate 8 0))] s = .next a ∧
      Reference.perform [.keyinit key, .extract, .extract, .extract, .extract] s = .next e ∧
      SameGenerator a e

/-! ### EXTRACT and the data path (44, 45) -/

/-- R117: EXTRACT in phases K and V completes: exactly one Step, then S is rewritten from the new X and returned. MX, MC,
Mb and phase are unchanged. -/
def Obligations.ExtractAdvancesOneStep : Prop :=
  ∀ s : State, s.phase ≠ .U →
    let c := counterUpdate engineConfig s.gen
    let X := (nextState c).X
    let S := outputBlock X
    exec .extract s = .next
      { s with X := X, C := c.C, b := c.b, S := S, responses := s.responses ++ [⟨.ok, S.toList⟩] }

/-- R123: ENCRYPT and DECRYPT in phases K and V complete: result byte n is data byte n xored with byte n mod 16 of the
block that the (n div 16 + 1)-th Extraction of this command gives, and ceil(len/16) Extractions are made. MX, MC, Mb and
phase are unchanged. -/
def Obligations.BufferCommandsXorKeystream : Prop :=
  ∀ (data : List Byte) (i : Instr) (s : State), s.phase ≠ .U → (i = .encrypt data ∨ i = .decrypt data) →
    ∃ out : List Byte, out.length = data.length ∧
      (∀ n, n < data.length →
        out.getD n 0 = data.getD n 0 ^^^ ((extraction engineConfig)^[n / 16 + 1] s.gen).S.getD (n % 16) 0) ∧
      let t := (extraction engineConfig)^[(data.length + 15) / 16] s.gen
      exec i s = .next
        { s with X := t.X, C := t.C, b := t.b, S := t.S, responses := s.responses ++ [⟨.ok, out⟩] }

/-- ENCMSG and DECMSG in phases K and V, with `none` or an 8-byte IV, complete, and do what IVINIT then ENCRYPT do, with
the one response of the transform (R128, R130). That a present IV restarts from the master snapshot is against R53's words
on repeating the command (log entry 14, DEDUCED). -/
def Obligations.MessageFormsAreIvinitThenEncrypt : Prop :=
  ∀ (iv : Option (List Byte)) (data : List Byte) (i : Instr) (s : State),
    s.phase ≠ .U → (∀ bytes, iv = some bytes → bytes.length = 8) →
    (i = .encmsg iv data ∨ i = .decmsg iv data) →
    ∃ a t out, exec (.ivinit iv) s = .next a ∧ exec (.encrypt data) a = .next t ∧
      t.responses = a.responses ++ [⟨.ok, out⟩] ∧
      exec i s = .next { t with responses := s.responses ++ [⟨.ok, out⟩] }

/-- Repeating a data command in phases K and V. ENCRYPT, DECRYPT, and the message forms with `none`, go on in the
keystream: the repetition's bytes are xored with the blocks after those the first command drew (R53). The message forms
with an 8-byte IV give the same bytes again (R128, R166), where R53's words say otherwise (log entry 14, DEDUCED). -/
def Obligations.RepetitionGoesOnUnlessIvPresent : Prop :=
  (∀ (data : List Byte) (i : Instr) (s : State), s.phase ≠ .U →
    (i = .encrypt data ∨ i = .decrypt data ∨ i = .encmsg none data ∨ i = .decmsg none data) →
    ∃ t u first again, exec i s = .next t ∧ t.responses = s.responses ++ [⟨.ok, first⟩] ∧
      exec i t = .next u ∧ u.responses = t.responses ++ [⟨.ok, again⟩] ∧ again.length = data.length ∧
      (∀ n, n < data.length → again.getD n 0 =
        data.getD n 0 ^^^ ((extraction engineConfig)^[(data.length + 15) / 16 + n / 16 + 1] s.gen).S.getD (n % 16) 0)) ∧
  (∀ (iv data : List Byte) (i : Instr) (s : State), s.phase ≠ .U → iv.length = 8 →
    (i = .encmsg (some iv) data ∨ i = .decmsg (some iv) data) →
    ∃ t u out, exec i s = .next t ∧ t.responses = s.responses ++ [⟨.ok, out⟩] ∧
      exec i t = .next u ∧ u.responses = t.responses ++ [⟨.ok, out⟩])

/-- Round trip of the message forms: DECMSG with the same IV gives the message of ENCMSG back, on one engine, with no
re-initialisation in between (R128, R131). It rests on the restart from the master snapshot in each message command, which
is against R53's words (log entry 14, DEDUCED). -/
def Obligations.MessageRoundTrip : Prop :=
  ∀ (iv m : List Byte) (s : State), s.phase ≠ .U → iv.length = 8 →
    ∃ t c u, exec (.encmsg (some iv) m) s = .next t ∧ t.responses = s.responses ++ [⟨.ok, c⟩] ∧
      exec (.decmsg (some iv) c) t = .next u ∧ u.responses = t.responses ++ [⟨.ok, m⟩]

/-- Round trip of the buffer forms: with the generator at the same position, DECRYPT undoes ENCRYPT, S not mattering. -/
def Obligations.BufferRoundTripAtSamePosition : Prop :=
  ∀ (m : List Byte) (s t : State), s.phase ≠ .U → t.phase ≠ .U → SameGenerator s t →
    ∃ u c v, exec (.encrypt m) s = .next u ∧ u.responses = s.responses ++ [⟨.ok, c⟩] ∧
      exec (.decrypt c) t = .next v ∧ v.responses = t.responses ++ [⟨.ok, m⟩]

/-- The state after a data command depends on the length of the data alone, and result byte n on data byte n alone. -/
def Obligations.KeystreamIgnoresData : Prop :=
  ∀ (d e : List Byte) (s : State), s.phase ≠ .U → d.length = e.length →
    ∃ u v c f, exec (.encrypt d) s = .next u ∧ exec (.encrypt e) s = .next v ∧
      u.responses = s.responses ++ [⟨.ok, c⟩] ∧ v.responses = s.responses ++ [⟨.ok, f⟩] ∧
      { u with responses := [] } = { v with responses := [] } ∧
      (∀ n, n < d.length → c.getD n 0 ^^^ f.getD n 0 = d.getD n 0 ^^^ e.getD n 0)

/-- A buffer split at a multiple of 16 is transformed as the whole is, and the engine is left in the same state. -/
def Obligations.SplitAtSixteenChangesNothing : Prop :=
  ∀ (d e : List Byte) (s : State), s.phase ≠ .U → d.length % 16 = 0 →
    ∃ u v w c f, exec (.encrypt (d ++ e)) s = .next u ∧ exec (.encrypt d) s = .next v ∧
      exec (.encrypt e) v = .next w ∧
      v.responses = s.responses ++ [⟨.ok, c⟩] ∧ w.responses = s.responses ++ [⟨.ok, c⟩, ⟨.ok, f⟩] ∧
      u = { w with responses := s.responses ++ [⟨.ok, c ++ f⟩] }

/-! ### Errors, responses, phase (10, 30, 60) -/

/-- R135: in phase U every command but KEYINIT is NotKeyInitialized whatever its operands, and nothing changes. -/
def Obligations.UninitializedRefusesUse : Prop :=
  ∀ (i : Instr) (s : State), s.phase = .U → i.opcode ≠ .keyinit →
    exec i s = .next { s with responses := s.responses ++ [⟨.notKeyInitialized, []⟩] }

/-- R61: every command is answered by exactly one response, its result as long as the command says. -/
def Obligations.OneResponsePerCommand : Prop :=
  ∀ (i : Instr) (s : State), ∃ t r, exec i s = .next t ∧ t.responses = s.responses ++ [r] ∧
    (r.status ≠ .ok → r.out = []) ∧ r.status ≠ .illegalCommand ∧
    (r.status = .ok →
      match i with
      | .keyinit _ => r.out = []
      | .ivinit _ => r.out = []
      | .extract => r.out = t.S.toList ∧ r.out.length = 16
      | .encrypt data => r.out.length = data.length
      | .decrypt data => r.out.length = data.length
      | .encmsg _ data => r.out.length = data.length
      | .decmsg _ data => r.out.length = data.length)

/-- From R140: a command answered with an error has written no register, phase included; only the response is new. The
same of a whole step, illegal frames included, but that the frame is consumed and counted. The form of the command channel
(log entry 5) and the counting in `resets` (log entry 6) are the model's choice. -/
def Obligations.ErrorsChangeNothing : Prop :=
  (∀ (i : Instr) (s t : State) (r : Response),
    exec i s = .next t → t.responses = s.responses ++ [r] → r.status ≠ .ok →
    t = { s with responses := s.responses ++ [⟨r.status, []⟩] }) ∧
  (∀ (s t : State) (r : Response),
    step s = .next t → t.responses = s.responses ++ [r] → r.status ≠ .ok →
    ∃ rest, ((∃ i, decode s.cmdIn = .command i rest) ∨ (∃ why, decode s.cmdIn = .illegal why rest)) ∧
      t = { s with
        cmdIn := rest, resets := countFrames 1 s.resets, responses := s.responses ++ [⟨r.status, []⟩] })

/-- The transitions of phase, for every command that succeeds and every one that does not. -/
def Obligations.PhaseFollowsLifecycle : Prop :=
  ∀ (i : Instr) (s t : State) (r : Response),
    exec i s = .next t → t.responses = s.responses ++ [r] →
    (r.status ≠ .ok → t.phase = s.phase) ∧
    (r.status = .ok →
      match i with
      | .keyinit _ => t.phase = .K
      | .ivinit (some _) => s.phase ≠ .U ∧ t.phase = .V
      | .ivinit none => s.phase ≠ .U ∧ t.phase = s.phase
      | .extract => s.phase ≠ .U ∧ t.phase = s.phase
      | .encrypt _ => s.phase ≠ .U ∧ t.phase = s.phase
      | .decrypt _ => s.phase ≠ .U ∧ t.phase = s.phase
      | .encmsg (some _) _ => s.phase ≠ .U ∧ t.phase = .V
      | .encmsg none _ => s.phase ≠ .U ∧ t.phase = s.phase
      | .decmsg (some _) _ => s.phase ≠ .U ∧ t.phase = .V
      | .decmsg none _ => s.phase ≠ .U ∧ t.phase = s.phase)

/-- Phases K and V behave alike: the same responses and the same registers, phase apart. -/
def Obligations.PhasesKAndVAlike : Prop :=
  ∀ (i : Instr) (s : State), ∃ t u,
    exec i { s with phase := .K } = .next t ∧ exec i { s with phase := .V } = .next u ∧
    { t with phase := .U } = { u with phase := .U }

/-- No command but KEYINIT writes the master snapshot. -/
def Obligations.MasterWrittenOnlyByKeyinit : Prop :=
  ∀ (i : Instr) (s t : State), i.opcode ≠ .keyinit → exec i s = .next t → SameMaster t s

/-- What a response's status and length and the next phase depend on: the command, its operand lengths and the phase,
never the value of a key, an IV, data or a register. -/
def Obligations.StatusDependsOnLengthsAndPhase : Prop :=
  ∀ (i j : Instr) (s t : State),
    i.opcode = j.opcode → i.ivAbsent = j.ivAbsent → i.paramBytes.length = j.paramBytes.length →
    i.dataBytes.length = j.dataBytes.length → s.phase = t.phase →
    ∃ u v q r, exec i s = .next u ∧ exec j t = .next v ∧
      u.responses = s.responses ++ [q] ∧ v.responses = t.responses ++ [r] ∧
      q.status = r.status ∧ q.out.length = r.out.length ∧ u.phase = v.phase

/-! ### The machine as a whole -/

/-- Headline: two engines with the same channels and phase, whose key-derived registers agree outside phase U, take the
same step for the host, and stay so. So what reset left in the registers, and S, are never observed. -/
def Obligations.HostCannotSeeUnsetRegisters : Prop :=
  ∀ s t : State, HostEquivalent s t →
    ∃ u v, step s = .next u ∧ step t = .next v ∧ HostEquivalent u v

/-- Headline: every step keeps the lifecycle invariant, from every state that meets it. -/
def Obligations.LifecycleKeptByStep : Prop :=
  ∀ s t : State, Lifecycle engineConfig s → step s = .next t → Lifecycle engineConfig t

/-- The lifecycle invariant holds after reset. -/
def Obligations.LifecycleAtReset : Prop :=
  Lifecycle engineConfig State.reset

/-- Every step keeps: a response that reports an error carries no result byte. -/
def Obligations.ErrorsCarryNothingKept : Prop :=
  ∀ s t : State, ErrorsCarryNothing s → step s = .next t → ErrorsCarryNothing t

/-- A list of frames that no reset strikes is carried out one after another, in order, one response each; nothing else is
consumed. The forms of the channels are the model's (log entries 5 and 6). -/
def Obligations.FrameListRunsInOrder : Prop :=
  ∀ (is : List Instr) (rest : List Byte) (s : State),
    (∀ i ∈ is, i.wf = true) → s.cmdIn = is.flatMap encode ++ rest →
    (∀ e ∈ s.resets.head?, is.length ≤ e.frames) →
    ∃ t : State, Sys2Proof.core.run is.length s = .next t ∧
      Reference.perform is { s with cmdIn := rest, resets := countFrames is.length s.resets } = .next t ∧
      t.cmdIn = rest ∧ t.responses.length = s.responses.length + is.length
end

