-- ==== Sys2Proof/Laws/Bits.lean ====
section
/-! SUPPORT. Concatenations of bit vectors as numbers (R10). -/

namespace Sys2Proof

theorem toNat_append_add {m n : Nat} (x : BitVec m) (y : BitVec n) :
    (x ++ y).toNat = x.toNat * 2 ^ n + y.toNat := by
  rw [BitVec.toNat_append, ← Nat.shiftLeft_add_eq_or_of_lt y.isLt, Nat.shiftLeft_eq]

theorem append_eq_append {m n : Nat} (x x' : BitVec m) (y y' : BitVec n) :
    x ++ y = x' ++ y' ↔ x = x' ∧ y = y' := by
  constructor
  · intro h
    have h' := congrArg BitVec.toNat h
    rw [toNat_append_add, toNat_append_add] at h'
    have hy : y.toNat = y'.toNat := by
      have := congrArg (· % 2 ^ n) h'
      simpa [Nat.mod_eq_of_lt y.isLt, Nat.mod_eq_of_lt y'.isLt] using this
    refine ⟨BitVec.eq_of_toNat_eq ?_, BitVec.eq_of_toNat_eq hy⟩
    rw [hy] at h'
    exact Nat.eq_of_mul_eq_mul_right (Nat.two_pow_pos n) (by omega)
  · rintro ⟨rfl, rfl⟩
    rfl

end Sys2Proof
end

