-- ==== Sys2Proof/Laws/Bytes.lean ====
section
/-! SUPPORT. Little-endian byte strings and numbers (R15, R48). -/

namespace Sys2Proof

@[simp] theorem leNat_nil : leNat [] = 0 := rfl

@[simp] theorem leNat_cons (byte : Byte) (rest : List Byte) :
    leNat (byte :: rest) = byte.toNat + 2 ^ 8 * leNat rest := rfl

@[simp] theorem leBytes_zero (v : Nat) : leBytes 0 v = [] := rfl

@[simp] theorem leBytes_succ (n v : Nat) :
    leBytes (n + 1) v = BitVec.ofNat 8 v :: leBytes n (v / 2 ^ 8) := rfl

@[simp] theorem leBytes_length (n v : Nat) : (leBytes n v).length = n := by
  induction n generalizing v with
  | zero => rfl
  | succ n ih => simp [ih]

theorem leNat_lt (bytes : List Byte) : leNat bytes < 2 ^ (8 * bytes.length) := by
  induction bytes with
  | nil => simp
  | cons byte rest ih =>
    have hb := byte.isLt
    rw [leNat_cons, List.length_cons, Nat.mul_add, Nat.pow_add]
    omega

theorem leNat_leBytes (n v : Nat) : leNat (leBytes n v) = v % 2 ^ (8 * n) := by
  induction n generalizing v with
  | zero => simp [Nat.mod_one]
  | succ n ih =>
    rw [leBytes_succ, leNat_cons, ih, BitVec.toNat_ofNat, Nat.mul_add, Nat.add_comm (8 * n),
      Nat.pow_add, Nat.mod_mul]

theorem leBytes_leNat (bytes : List Byte) : leBytes bytes.length (leNat bytes) = bytes := by
  induction bytes with
  | nil => rfl
  | cons byte rest ih =>
    have hb := byte.isLt
    rw [List.length_cons, leBytes_succ, leNat_cons]
    congr 1
    · apply BitVec.eq_of_toNat_eq
      rw [BitVec.toNat_ofNat]
      omega
    · have : (byte.toNat + 2 ^ 8 * leNat rest) / 2 ^ 8 = leNat rest := by omega
      rw [this, ih]

theorem leBytes_mod (n v : Nat) : leBytes n (v % 2 ^ (8 * n)) = leBytes n v := by
  rw [← leNat_leBytes]
  simpa using leBytes_leNat (leBytes n v)

theorem leBytes_add (m n v : Nat) : leBytes (m + n) v = leBytes m v ++ leBytes n (v / 2 ^ (8 * m)) := by
  induction m generalizing v with
  | zero => simp
  | succ m ih =>
    rw [Nat.add_right_comm, leBytes_succ, ih, leBytes_succ, List.cons_append, Nat.div_div_eq_div_mul,
      ← Nat.pow_add, Nat.mul_add, Nat.add_comm 8]

end Sys2Proof
end

