-- ==== Sys2Proof/Laws/Frames.lean ====
section
/-! SUPPORT. Headers, the decoder and the encoder (R62 to R71): the small lemmas of each. -/

namespace Sys2Proof

@[simp] theorem Header.ofBits_toBits (h : Header) : Header.ofBits h.toBits = h := by
  obtain ⟨op, n, r0, a, r1, d⟩ := h
  simp only [Header.ofBits, Header.toBits, Header.mk.injEq]
  refine ⟨?_, ?_, ?_, ?_, ?_, ?_⟩ <;>
  · ext i hi
    simp only [BitVec.getElem_extractLsb', BitVec.getLsbD_append]
    grind

@[simp] theorem Header.toBits_ofBits (H : BitVec 64) : (Header.ofBits H).toBits = H := by
  ext i hi
  simp only [Header.ofBits, Header.toBits, ← BitVec.getLsbD_eq_getElem]
  grind

@[simp] theorem opcodeOf_code (op : Opcode) : opcodeOf op.code = some op := by cases op <;> rfl

theorem opcodeOf_eq_some {v : BitVec 4} {op : Opcode} : opcodeOf v = some op ↔ v = op.code := by
  constructor
  · intro h
    revert v
    cases op <;> decide
  · rintro rfl
    exact opcodeOf_code op

theorem opcodeOf_eq_none {v : BitVec 4} : opcodeOf v = none ↔ v = 0 ∨ 8 ≤ v.toNat := by
  revert v
  decide

@[simp] theorem headerBits_leBytes (H : BitVec 64) : headerBits (leBytes 8 H.toNat) = H := by
  apply BitVec.eq_of_toNat_eq
  simp only [headerBits, leNat_leBytes, BitVec.toNat_ofNat]
  omega

theorem leBytes_headerBits {bytes : List Byte} (h : bytes.length = 8) :
    leBytes 8 (headerBits bytes).toNat = bytes := by
  have hlt := leNat_lt bytes
  rw [h] at hlt
  rw [headerBits, BitVec.toNat_ofNat, Nat.mod_eq_of_lt hlt, ← h, leBytes_leNat]

/-- The decoder on a whole header followed by any bytes. -/
theorem decode_header_append (H : BitVec 64) (body : List Byte) :
    decode (leBytes 8 H.toNat ++ body) = decodeBody (Header.ofBits H) body := by
  have h8 : (leBytes 8 H.toNat).length = 8 := leBytes_length _ _
  rw [decode, if_neg (by simp only [List.length_append, h8, Config.headerLength]; omega)]
  rw [show Config.headerLength = (leBytes 8 H.toNat).length from h8.symm, List.take_left, List.drop_left,
    headerBits_leBytes]

theorem decode_short {bytes : List Byte} (h : bytes.length < 8) : decode bytes = .incomplete := by
  exact if_pos h

/-- A byte string that is long enough is a header and a body. -/
theorem exists_header {bytes : List Byte} (h : ¬ bytes.length < 8) :
    ∃ H : BitVec 64, ∃ body, bytes = leBytes 8 H.toNat ++ body := by
  refine ⟨headerBits (bytes.take 8), bytes.drop 8, ?_⟩
  rw [leBytes_headerBits (by simp; omega), List.take_append_drop]

theorem Instr.header_select (i : Instr) : i.header.select = .ok i.opcode := by
  cases i with
  | keyinit key => rfl
  | extract => rfl
  | encrypt data => rfl
  | decrypt data => rfl
  | ivinit iv => cases iv <;> rfl
  | encmsg iv data => cases iv <;> rfl
  | decmsg iv data => cases iv <;> rfl

/-- The "must" columns of R64, as one condition. -/
theorem Header.fieldProblem_eq_none (h : Header) (f : Format) :
    h.fieldProblem f = none ↔
      h.RSV0 = 0 ∧ h.RSV1 = 0 ∧ (f.mayBeAbsent = false → h.N = 0) ∧
        (f.hasParam = false ∨ h.N = 1 → h.ALEN = 0) ∧ (f.hasData = false → h.DLEN = 0) := by
  have hN : h.N = 0 ↔ ¬ h.N = 1 := by
    generalize h.N = n
    revert n
    decide
  rw [hN]
  unfold Header.fieldProblem
  split_ifs <;> simp_all

/-- When a header is legal, and which opcode it then selects (R64, R65). -/
theorem Header.select_eq_ok (h : Header) (op : Opcode) :
    h.select = .ok op ↔ h.OP = op.code ∧ h.fieldProblem op.format = none := by
  unfold Header.select
  rw [← opcodeOf_eq_some]
  cases ho : opcodeOf h.OP with
  | none => simp
  | some o =>
    by_cases he : o = op
    · subst he
      cases hf : h.fieldProblem o.format <;> simp [hf]
    · cases hf : h.fieldProblem o.format <;> simp [hf, he]

/-- "H and mask = pattern", field by field (R65). -/
theorem Header.masked_iff (h : Header) (d d' : BitVec 32) (r1 r1' : BitVec 16) (a a' : BitVec 8) (r0 r0' : BitVec 3)
    (n n' : BitVec 1) (o o' : BitVec 4) :
    (h.toBits &&& (d ++ r1 ++ a ++ r0 ++ n ++ o) == (d' ++ r1' ++ a' ++ r0' ++ n' ++ o')) = true ↔
      h.DLEN &&& d = d' ∧ h.RSV1 &&& r1 = r1' ∧ h.ALEN &&& a = a' ∧ h.RSV0 &&& r0 = r0' ∧ h.N &&& n = n' ∧
        h.OP &&& o = o' := by
  rw [beq_iff_eq]
  show ((h.DLEN ++ h.RSV1 ++ h.ALEN ++ h.RSV0 ++ h.N ++ h.OP : BitVec (32 + 16 + 8 + 3 + 1 + 4)) &&&
    (d ++ r1 ++ a ++ r0 ++ n ++ o)) = (d' ++ r1' ++ a' ++ r0' ++ n' ++ o') ↔ _
  simp only [BitVec.and_append, append_eq_append, and_assoc]

theorem Instr.wf_iff (i : Instr) : i.wf = true ↔ i.paramBytes.length < 2 ^ 8 ∧ i.dataBytes.length < 2 ^ 32 := by
  simp [Instr.wf, Instr.paramFits, Instr.dataFits]

theorem Instr.header_ALEN (i : Instr) (h : i.wf = true) : i.header.ALEN.toNat = i.paramBytes.length := by
  have := (i.wf_iff.1 h).1
  simpa [Instr.header] using this

theorem Instr.header_DLEN (i : Instr) (h : i.wf = true) : i.header.DLEN.toNat = i.dataBytes.length := by
  have := (i.wf_iff.1 h).2
  simpa [Instr.header] using this

/-- The abstract command is rebuilt from its own header and operands (R64). -/
theorem Instr.build_self (i : Instr) : buildInstr i.opcode i.header i.paramBytes i.dataBytes = i := by
  cases i with
  | keyinit key => rfl
  | extract => rfl
  | encrypt data => rfl
  | decrypt data => rfl
  | ivinit iv => cases iv <;> rfl
  | encmsg iv data => cases iv <;> rfl
  | decmsg iv data => cases iv <;> rfl

end Sys2Proof
end

