-- ==== Sys2Proof/Laws/State.lean ====
section
/-! SUPPORT. One lemma per field per update of State, each true by rfl, so that no later proof unfolds a record
update, and the small laws of the reset input. -/

namespace Sys2Proof.Machine.State

variable (s : State)

@[simp] theorem gen_X : s.gen.X = s.X := rfl
@[simp] theorem gen_C : s.gen.C = s.C := rfl
@[simp] theorem gen_b : s.gen.b = s.b := rfl
@[simp] theorem gen_S : s.gen.S = s.S := rfl

@[simp] theorem setGen_gen (r : Generator) : (s.setGen r).gen = r := rfl
@[simp] theorem gen_setGen : s.setGen s.gen = s := rfl
@[simp] theorem setGen_setGen (r q : Generator) : (s.setGen r).setGen q = s.setGen q := rfl
@[simp] theorem snapshot_gen : s.snapshot.gen = s.gen := rfl
@[simp] theorem setPhase_gen (p : Phase) : (s.setPhase p).gen = s.gen := rfl
@[simp] theorem respond_gen (e : Status) (out : List Byte) : (s.respond e out).gen = s.gen := rfl
@[simp] theorem setInputs_gen (bytes : List Byte) (coming : List ResetEvent) : (s.setInputs bytes coming).gen = s.gen := rfl
@[simp] theorem takeFrame_gen (rest : List Byte) : (s.takeFrame rest).gen = s.gen := rfl

@[simp] theorem setGen_X (r : Generator) : (s.setGen r).X = r.X := rfl
@[simp] theorem setGen_C (r : Generator) : (s.setGen r).C = r.C := rfl
@[simp] theorem setGen_b (r : Generator) : (s.setGen r).b = r.b := rfl
@[simp] theorem setGen_MX (r : Generator) : (s.setGen r).MX = s.MX := rfl
@[simp] theorem setGen_MC (r : Generator) : (s.setGen r).MC = s.MC := rfl
@[simp] theorem setGen_Mb (r : Generator) : (s.setGen r).Mb = s.Mb := rfl
@[simp] theorem setGen_S (r : Generator) : (s.setGen r).S = r.S := rfl
@[simp] theorem setGen_phase (r : Generator) : (s.setGen r).phase = s.phase := rfl
@[simp] theorem setGen_cmdIn (r : Generator) : (s.setGen r).cmdIn = s.cmdIn := rfl
@[simp] theorem setGen_resets (r : Generator) : (s.setGen r).resets = s.resets := rfl
@[simp] theorem setGen_responses (r : Generator) : (s.setGen r).responses = s.responses := rfl
@[simp] theorem setGen_draws (r : Generator) : (s.setGen r).draws = s.draws := rfl

@[simp] theorem snapshot_X : (s.snapshot).X = s.X := rfl
@[simp] theorem snapshot_C : (s.snapshot).C = s.C := rfl
@[simp] theorem snapshot_b : (s.snapshot).b = s.b := rfl
@[simp] theorem snapshot_MX : (s.snapshot).MX = s.X := rfl
@[simp] theorem snapshot_MC : (s.snapshot).MC = s.C := rfl
@[simp] theorem snapshot_Mb : (s.snapshot).Mb = s.b := rfl
@[simp] theorem snapshot_S : (s.snapshot).S = s.S := rfl
@[simp] theorem snapshot_phase : (s.snapshot).phase = s.phase := rfl
@[simp] theorem snapshot_cmdIn : (s.snapshot).cmdIn = s.cmdIn := rfl
@[simp] theorem snapshot_resets : (s.snapshot).resets = s.resets := rfl
@[simp] theorem snapshot_responses : (s.snapshot).responses = s.responses := rfl
@[simp] theorem snapshot_draws : (s.snapshot).draws = s.draws := rfl

@[simp] theorem setPhase_X (p : Phase) : (s.setPhase p).X = s.X := rfl
@[simp] theorem setPhase_C (p : Phase) : (s.setPhase p).C = s.C := rfl
@[simp] theorem setPhase_b (p : Phase) : (s.setPhase p).b = s.b := rfl
@[simp] theorem setPhase_MX (p : Phase) : (s.setPhase p).MX = s.MX := rfl
@[simp] theorem setPhase_MC (p : Phase) : (s.setPhase p).MC = s.MC := rfl
@[simp] theorem setPhase_Mb (p : Phase) : (s.setPhase p).Mb = s.Mb := rfl
@[simp] theorem setPhase_S (p : Phase) : (s.setPhase p).S = s.S := rfl
@[simp] theorem setPhase_phase (p : Phase) : (s.setPhase p).phase = p := rfl
@[simp] theorem setPhase_cmdIn (p : Phase) : (s.setPhase p).cmdIn = s.cmdIn := rfl
@[simp] theorem setPhase_resets (p : Phase) : (s.setPhase p).resets = s.resets := rfl
@[simp] theorem setPhase_responses (p : Phase) : (s.setPhase p).responses = s.responses := rfl
@[simp] theorem setPhase_draws (p : Phase) : (s.setPhase p).draws = s.draws := rfl

@[simp] theorem respond_X (e : Status) (out : List Byte) : (s.respond e out).X = s.X := rfl
@[simp] theorem respond_C (e : Status) (out : List Byte) : (s.respond e out).C = s.C := rfl
@[simp] theorem respond_b (e : Status) (out : List Byte) : (s.respond e out).b = s.b := rfl
@[simp] theorem respond_MX (e : Status) (out : List Byte) : (s.respond e out).MX = s.MX := rfl
@[simp] theorem respond_MC (e : Status) (out : List Byte) : (s.respond e out).MC = s.MC := rfl
@[simp] theorem respond_Mb (e : Status) (out : List Byte) : (s.respond e out).Mb = s.Mb := rfl
@[simp] theorem respond_S (e : Status) (out : List Byte) : (s.respond e out).S = s.S := rfl
@[simp] theorem respond_phase (e : Status) (out : List Byte) : (s.respond e out).phase = s.phase := rfl
@[simp] theorem respond_cmdIn (e : Status) (out : List Byte) : (s.respond e out).cmdIn = s.cmdIn := rfl
@[simp] theorem respond_resets (e : Status) (out : List Byte) : (s.respond e out).resets = s.resets := rfl
@[simp] theorem respond_responses (e : Status) (out : List Byte) : (s.respond e out).responses = s.responses ++ [⟨e, out⟩] := rfl
@[simp] theorem respond_draws (e : Status) (out : List Byte) : (s.respond e out).draws = s.draws := rfl

@[simp] theorem setInputs_X (bytes : List Byte) (coming : List ResetEvent) : (s.setInputs bytes coming).X = s.X := rfl
@[simp] theorem setInputs_C (bytes : List Byte) (coming : List ResetEvent) : (s.setInputs bytes coming).C = s.C := rfl
@[simp] theorem setInputs_b (bytes : List Byte) (coming : List ResetEvent) : (s.setInputs bytes coming).b = s.b := rfl
@[simp] theorem setInputs_MX (bytes : List Byte) (coming : List ResetEvent) : (s.setInputs bytes coming).MX = s.MX := rfl
@[simp] theorem setInputs_MC (bytes : List Byte) (coming : List ResetEvent) : (s.setInputs bytes coming).MC = s.MC := rfl
@[simp] theorem setInputs_Mb (bytes : List Byte) (coming : List ResetEvent) : (s.setInputs bytes coming).Mb = s.Mb := rfl
@[simp] theorem setInputs_S (bytes : List Byte) (coming : List ResetEvent) : (s.setInputs bytes coming).S = s.S := rfl
@[simp] theorem setInputs_phase (bytes : List Byte) (coming : List ResetEvent) : (s.setInputs bytes coming).phase = s.phase := rfl
@[simp] theorem setInputs_cmdIn (bytes : List Byte) (coming : List ResetEvent) : (s.setInputs bytes coming).cmdIn = bytes := rfl
@[simp] theorem setInputs_resets (bytes : List Byte) (coming : List ResetEvent) : (s.setInputs bytes coming).resets = coming := rfl
@[simp] theorem setInputs_responses (bytes : List Byte) (coming : List ResetEvent) : (s.setInputs bytes coming).responses = s.responses := rfl
@[simp] theorem setInputs_draws (bytes : List Byte) (coming : List ResetEvent) : (s.setInputs bytes coming).draws = s.draws := rfl

@[simp] theorem takeFrame_X (rest : List Byte) : (s.takeFrame rest).X = s.X := rfl
@[simp] theorem takeFrame_C (rest : List Byte) : (s.takeFrame rest).C = s.C := rfl
@[simp] theorem takeFrame_b (rest : List Byte) : (s.takeFrame rest).b = s.b := rfl
@[simp] theorem takeFrame_MX (rest : List Byte) : (s.takeFrame rest).MX = s.MX := rfl
@[simp] theorem takeFrame_MC (rest : List Byte) : (s.takeFrame rest).MC = s.MC := rfl
@[simp] theorem takeFrame_Mb (rest : List Byte) : (s.takeFrame rest).Mb = s.Mb := rfl
@[simp] theorem takeFrame_S (rest : List Byte) : (s.takeFrame rest).S = s.S := rfl
@[simp] theorem takeFrame_phase (rest : List Byte) : (s.takeFrame rest).phase = s.phase := rfl
@[simp] theorem takeFrame_cmdIn (rest : List Byte) : (s.takeFrame rest).cmdIn = rest := rfl
@[simp] theorem takeFrame_resets (rest : List Byte) : (s.takeFrame rest).resets = countFrames 1 s.resets := rfl
@[simp] theorem takeFrame_responses (rest : List Byte) : (s.takeFrame rest).responses = s.responses := rfl
@[simp] theorem takeFrame_draws (rest : List Byte) : (s.takeFrame rest).draws = s.draws := rfl

@[simp] theorem resetRegisters_X : (s.resetRegisters).X = Config.freeX s.draws s.remains := rfl
@[simp] theorem resetRegisters_C : (s.resetRegisters).C = Config.freeC s.draws s.remains := rfl
@[simp] theorem resetRegisters_b : (s.resetRegisters).b = Config.freeB s.draws s.remains := rfl
@[simp] theorem resetRegisters_MX : (s.resetRegisters).MX = Config.freeMX s.draws s.remains := rfl
@[simp] theorem resetRegisters_MC : (s.resetRegisters).MC = Config.freeMC s.draws s.remains := rfl
@[simp] theorem resetRegisters_Mb : (s.resetRegisters).Mb = Config.freeMb s.draws s.remains := rfl
@[simp] theorem resetRegisters_S : (s.resetRegisters).S = Config.freeS s.draws s.remains := rfl
@[simp] theorem resetRegisters_phase : (s.resetRegisters).phase = .U := rfl
@[simp] theorem resetRegisters_cmdIn : (s.resetRegisters).cmdIn = s.cmdIn := rfl
@[simp] theorem resetRegisters_resets : (s.resetRegisters).resets = s.resets := rfl
@[simp] theorem resetRegisters_responses : (s.resetRegisters).responses = s.responses := rfl
@[simp] theorem resetRegisters_draws : (s.resetRegisters).draws = s.draws + 1 := rfl

end Sys2Proof.Machine.State

namespace Sys2Proof.Machine

/-! The reset input (R146, R158; log entry 6). -/

@[simp] theorem countFrames_nil (n : Nat) : countFrames n [] = [] := rfl
@[simp] theorem countFrames_cons (n : Nat) (e : ResetEvent) (later : List ResetEvent) :
    countFrames n (e :: later) = { e with frames := e.frames - n } :: later := rfl

@[simp] theorem countFrames_zero (coming : List ResetEvent) : countFrames 0 coming = coming := by cases coming <;> rfl

theorem countFrames_countFrames (m n : Nat) (coming : List ResetEvent) :
    countFrames n (countFrames m coming) = countFrames (m + n) coming := by
  cases coming with
  | nil => rfl
  | cons e later => simp only [countFrames_cons, Nat.sub_sub]

@[simp] theorem countFrames_delayReset (coming : List ResetEvent) : countFrames 1 (delayReset coming) = coming := by
  cases coming <;> rfl

@[simp] theorem resetDue_delayReset (coming : List ResetEvent) : resetDue (delayReset coming) = false := by
  cases coming <;> rfl

@[simp] theorem resetDue_nil : resetDue [] = false := rfl

theorem resetDue_cons (e : ResetEvent) (later : List ResetEvent) : resetDue (e :: later) = true ↔ e.frames = 0 := beq_iff_eq

theorem resetDue_eq_true {coming : List ResetEvent} (h : resetDue coming = true) :
    ∃ e later, coming = e :: later ∧ e.frames = 0 := by
  cases coming with
  | nil => cases h
  | cons e later => exact ⟨e, later, rfl, (resetDue_cons e later).1 h⟩

end Sys2Proof.Machine
end

