-- ==== Sys2Proof/Laws/Generator.lean ====
section
/-! SUPPORT. The micro-operations on the generator registers: what each writes, what it leaves alone, and what it
depends on (R101 to R124). -/

namespace Sys2Proof.Machine

open Sys2Proof.Safety

/-! ### CounterUpdate (R102) -/

theorem words_getD (v : Words) (j : Fin 8) : v.getD j.val 0 = v[j] := by
  obtain ⟨a, ha⟩ := v
  have hj : j.val < a.size := by rw [ha]; exact j.isLt
  show a.getD j.val 0 = a[j.val]
  rw [Array.getD, dif_pos hj]
  rfl

@[simp] theorem carryInto_zero (A C : Words) (b : Carry) : carryInto A C b 0 = b := rfl

theorem carryInto_succ (A C : Words) (b : Carry) (j : Fin 8) :
    carryInto A C b (j.val + 1) = carryOut C[j] A[j] (carryInto A C b j.val) := by
  rw [carryInto, words_getD, words_getD]

theorem counterWords_getElem (A C : Words) (b : Carry) (j : Fin 8) :
    (counterWords A C b)[j] = counterWord C[j] A[j] (carryInto A C b j.val) := by
  simp [counterWords]

/-! ### Step (R112) -/

section
variable (cfg : Config) (r : Generator)

@[simp] theorem counterUpdate_X : (counterUpdate cfg r).X = r.X := rfl
@[simp] theorem counterUpdate_C : (counterUpdate cfg r).C = counterWords cfg.A r.C r.b := rfl
@[simp] theorem counterUpdate_b : (counterUpdate cfg r).b = carryInto cfg.A r.C r.b 8 := rfl
@[simp] theorem counterUpdate_S : (counterUpdate cfg r).S = r.S := rfl

@[simp] theorem nextState_X : (nextState r).X = mixWords (gWords r.X r.C) := rfl
@[simp] theorem nextState_C : (nextState r).C = r.C := rfl
@[simp] theorem nextState_b : (nextState r).b = r.b := rfl
@[simp] theorem nextState_S : (nextState r).S = r.S := rfl

@[simp] theorem genStep_S : (genStep cfg r).S = r.S := rfl

end

@[simp] theorem genSteps_zero (cfg : Config) (r : Generator) : genSteps cfg 0 r = r := rfl

theorem genSteps_succ (cfg : Config) (n : Nat) (r : Generator) :
    genSteps cfg (n + 1) r = genSteps cfg n (genStep cfg r) := rfl

theorem genSteps_succ' (cfg : Config) (n : Nat) (r : Generator) :
    genSteps cfg (n + 1) r = genStep cfg (genSteps cfg n r) := by
  induction n generalizing r with
  | zero => rfl
  | succ n ih => rw [genSteps_succ, ih, ← genSteps_succ]

theorem genSteps_add (cfg : Config) (m n : Nat) (r : Generator) :
    genSteps cfg (m + n) r = genSteps cfg n (genSteps cfg m r) := by
  induction m generalizing r with
  | zero => rw [Nat.zero_add, genSteps_zero]
  | succ m ih => rw [Nat.succ_add, genSteps_succ, ih, ← genSteps_succ]

@[simp] theorem genSteps_S (cfg : Config) (n : Nat) (r : Generator) : (genSteps cfg n r).S = r.S := by
  induction n generalizing r with
  | zero => rfl
  | succ n ih => rw [genSteps_succ, ih, genStep_S]

theorem warmUp_eq (cfg : Config) (r : Generator) : warmUp cfg r = genSteps cfg 4 r := rfl

@[simp] theorem warmUp_S (cfg : Config) (r : Generator) : (warmUp cfg r).S = r.S := genSteps_S cfg 4 r

/-! ### What the next X, C, b depend on: X, C, b alone (R101, R109, R117) -/

theorem genStep_same (cfg : Config) {r q : Generator} (h : SameWorking r q) :
    SameWorking (genStep cfg r) (genStep cfg q) := by
  obtain ⟨hX, hC, hb⟩ := h
  refine ⟨?_, ?_, ?_⟩
  · show mixWords (gWords r.X (counterWords cfg.A r.C r.b)) = mixWords (gWords q.X (counterWords cfg.A q.C q.b))
    rw [hX, hC, hb]
  · show counterWords cfg.A r.C r.b = counterWords cfg.A q.C q.b
    rw [hC, hb]
  · show carryInto cfg.A r.C r.b 8 = carryInto cfg.A q.C q.b 8
    rw [hC, hb]

theorem genSteps_same (cfg : Config) (n : Nat) {r q : Generator} (h : SameWorking r q) :
    SameWorking (genSteps cfg n r) (genSteps cfg n q) := by
  induction n generalizing r q with
  | zero => exact h
  | succ n ih => exact ih (genStep_same cfg h)

theorem warmUp_same (cfg : Config) {r q : Generator} (h : SameWorking r q) :
    SameWorking (warmUp cfg r) (warmUp cfg q) := genSteps_same cfg 4 h

/-! ### Extraction (R117) -/

theorem extraction_eq (cfg : Config) (r : Generator) :
    extraction cfg r =
      { X := (genStep cfg r).X, C := (genStep cfg r).C, b := (genStep cfg r).b, S := outputBlock (genStep cfg r).X } := rfl

theorem extraction_sameWorking (cfg : Config) (r : Generator) : SameWorking (extraction cfg r) (genStep cfg r) :=
  ⟨rfl, rfl, rfl⟩

/-- S is a function of the new X, so Extraction depends on X, C, b alone, S included (R117, R30). -/
theorem extraction_congr (cfg : Config) {r q : Generator} (h : SameWorking r q) :
    extraction cfg r = extraction cfg q := by
  obtain ⟨hX, hC, hb⟩ := genStep_same cfg h
  rw [extraction_eq, extraction_eq, hX, hC, hb]

/-- `n` Extractions advance X, C, b by `n` Steps (R117, R124). -/
theorem extractions_sameWorking (cfg : Config) (n : Nat) (r : Generator) :
    SameWorking ((extraction cfg)^[n] r) (genSteps cfg n r) := by
  induction n with
  | zero => exact ⟨rfl, rfl, rfl⟩
  | succ n ih =>
    rw [Function.iterate_succ_apply', genSteps_succ']
    exact genStep_same cfg ih

theorem extractions_congr (cfg : Config) (n : Nat) {r q : Generator} (h : SameWorking r q) :
    (extraction cfg)^[n + 1] r = (extraction cfg)^[n + 1] q := by
  rw [Function.iterate_succ_apply, Function.iterate_succ_apply, extraction_congr cfg h]

/-! ### The schedules (R85 to R98) -/

/-- The key schedule reads nothing but the key (R91). -/
theorem keyedGenerator_same (cfg : Config) (key : List Byte) (r q : Generator) :
    SameWorking (keyedGenerator cfg key r) (keyedGenerator cfg key q) := by
  have k : SameWorking (keyLoad key r) (keyLoad key q) := ⟨rfl, rfl, rfl⟩
  obtain ⟨hX, hC, hb⟩ := warmUp_same cfg k
  refine ⟨hX, ?_, hb⟩
  simp only [keyedGenerator, counterRemix, hX, hC]

@[simp] theorem keyedGenerator_S (cfg : Config) (key : List Byte) (r : Generator) :
    (keyedGenerator cfg key r).S = r.S := warmUp_S cfg (keyLoad key r)

/-- The IV schedule reads the master snapshot and the IV alone (R100). -/
theorem ivLoad_same (cfg : Config) (iv : List Byte) {s t : State} (h : SameMaster s t) :
    SameWorking (ivLoad cfg iv s) (ivLoad cfg iv t) := by
  obtain ⟨hX, hC, hb⟩ := h
  refine ⟨hX, ?_, hb⟩
  show newCounters cfg s.MC iv = newCounters cfg t.MC iv
  rw [hC]

theorem ivSchedule_gen (cfg : Config) (iv : List Byte) (s : State) :
    (ivSchedule cfg iv s).gen = warmUp cfg (ivLoad cfg iv s) := by
  rw [ivSchedule, State.setPhase_gen, State.setGen_gen]

theorem ivSchedule_same (cfg : Config) (iv : List Byte) {s t : State} (h : SameMaster s t) :
    SameGenerator (ivSchedule cfg iv s) (ivSchedule cfg iv t) := by
  rw [SameGenerator, ivSchedule_gen, ivSchedule_gen]
  exact warmUp_same cfg (ivLoad_same cfg iv h)

section
variable (cfg : Config) (iv : List Byte) (key : List Byte) (s : State)

@[simp] theorem ivSchedule_MX : (ivSchedule cfg iv s).MX = s.MX := rfl
@[simp] theorem ivSchedule_MC : (ivSchedule cfg iv s).MC = s.MC := rfl
@[simp] theorem ivSchedule_Mb : (ivSchedule cfg iv s).Mb = s.Mb := rfl
@[simp] theorem ivSchedule_phase : (ivSchedule cfg iv s).phase = .V := rfl
@[simp] theorem ivSchedule_cmdIn : (ivSchedule cfg iv s).cmdIn = s.cmdIn := rfl
@[simp] theorem ivSchedule_resets : (ivSchedule cfg iv s).resets = s.resets := rfl
@[simp] theorem ivSchedule_responses : (ivSchedule cfg iv s).responses = s.responses := rfl
@[simp] theorem ivSchedule_draws : (ivSchedule cfg iv s).draws = s.draws := rfl
@[simp] theorem ivSchedule_S : (ivSchedule cfg iv s).S = s.S := by
  rw [ivSchedule, State.setPhase_S, State.setGen_S, warmUp_S]
  rfl

theorem keySchedule_gen : (keySchedule cfg key s).gen = keyedGenerator cfg key s.gen := by
  rw [keySchedule, State.setPhase_gen, State.snapshot_gen, State.setGen_gen]
@[simp] theorem keySchedule_MX : (keySchedule cfg key s).MX = (keyedGenerator cfg key s.gen).X := by
  rw [keySchedule, State.setPhase_MX, State.snapshot_MX, State.setGen_X]
@[simp] theorem keySchedule_MC : (keySchedule cfg key s).MC = (keyedGenerator cfg key s.gen).C := by
  rw [keySchedule, State.setPhase_MC, State.snapshot_MC, State.setGen_C]
@[simp] theorem keySchedule_Mb : (keySchedule cfg key s).Mb = (keyedGenerator cfg key s.gen).b := by
  rw [keySchedule, State.setPhase_Mb, State.snapshot_Mb, State.setGen_b]
@[simp] theorem keySchedule_phase : (keySchedule cfg key s).phase = .K := rfl
@[simp] theorem keySchedule_cmdIn : (keySchedule cfg key s).cmdIn = s.cmdIn := rfl
@[simp] theorem keySchedule_resets : (keySchedule cfg key s).resets = s.resets := rfl
@[simp] theorem keySchedule_responses : (keySchedule cfg key s).responses = s.responses := rfl
@[simp] theorem keySchedule_draws : (keySchedule cfg key s).draws = s.draws := rfl
@[simp] theorem keySchedule_S : (keySchedule cfg key s).S = s.S := by
  rw [keySchedule, State.setPhase_S, State.snapshot_S, State.setGen_S, keyedGenerator_S]
  rfl

end

section
variable (cfg : Config) (iv : Option (List Byte)) (s : State)

@[simp] theorem applyIv_none : applyIv cfg none s = s := rfl
@[simp] theorem applyIv_some (bytes : List Byte) : applyIv cfg (some bytes) s = ivSchedule cfg bytes s := rfl
@[simp] theorem applyIv_MX : (applyIv cfg iv s).MX = s.MX := by cases iv <;> rfl
@[simp] theorem applyIv_MC : (applyIv cfg iv s).MC = s.MC := by cases iv <;> rfl
@[simp] theorem applyIv_Mb : (applyIv cfg iv s).Mb = s.Mb := by cases iv <;> rfl
@[simp] theorem applyIv_cmdIn : (applyIv cfg iv s).cmdIn = s.cmdIn := by cases iv <;> rfl
@[simp] theorem applyIv_resets : (applyIv cfg iv s).resets = s.resets := by cases iv <;> rfl
@[simp] theorem applyIv_responses : (applyIv cfg iv s).responses = s.responses := by cases iv <;> rfl
@[simp] theorem applyIv_draws : (applyIv cfg iv s).draws = s.draws := by cases iv <;> rfl

theorem applyIv_phase : (applyIv cfg iv s).phase = if iv = none then s.phase else .V := by cases iv <;> rfl

end

/-! ### Crypt (R123) -/

@[simp] theorem cryptFrom_nil (cfg : Config) (i : Nat) (r : Generator) : cryptFrom cfg i [] r = ([], r) := rfl

theorem cryptFrom_cons (cfg : Config) (i : Nat) (d : Byte) (ds : List Byte) (r : Generator) :
    cryptFrom cfg i (d :: ds) r =
      ((d ^^^ keystreamByte (refill cfg i r) i) :: (cryptFrom cfg (i + 1) ds (refill cfg i r)).1,
        (cryptFrom cfg (i + 1) ds (refill cfg i r)).2) := rfl

theorem refill_at {i : Nat} (h : i % 16 = 0) (cfg : Config) (r : Generator) : refill cfg i r = extraction cfg r :=
  if_pos h

theorem refill_between {i : Nat} (h : i % 16 ≠ 0) (cfg : Config) (r : Generator) : refill cfg i r = r := if_neg h

@[simp] theorem cryptFrom_length (cfg : Config) (i : Nat) (data : List Byte) (r : Generator) :
    (cryptFrom cfg i data r).1.length = data.length := by
  induction data generalizing i r with
  | nil => rfl
  | cons d ds ih => rw [cryptFrom_cons, List.length_cons, List.length_cons, ih]

@[simp] theorem crypt_length (cfg : Config) (data : List Byte) (r : Generator) :
    (crypt cfg data r).1.length = data.length := cryptFrom_length cfg 0 data r

/-- The generator Crypt leaves depends on the length of the data, not on the data (R126). -/
theorem cryptFrom_gen_of_length (cfg : Config) (i : Nat) {d e : List Byte} (h : d.length = e.length) (r : Generator) :
    (cryptFrom cfg i d r).2 = (cryptFrom cfg i e r).2 := by
  induction d generalizing i e r with
  | nil => rw [List.length_eq_zero_iff.1 h.symm]
  | cons a ds ih =>
    cases e with
    | nil => simp at h
    | cons c es => exact ih (i + 1) (by simpa using h) _

/-- Crypt over a concatenation is Crypt over the parts, the index running on. -/
theorem cryptFrom_append (cfg : Config) (i : Nat) (d e : List Byte) (r : Generator) :
    cryptFrom cfg i (d ++ e) r =
      ((cryptFrom cfg i d r).1 ++ (cryptFrom cfg (i + d.length) e (cryptFrom cfg i d r).2).1,
        (cryptFrom cfg (i + d.length) e (cryptFrom cfg i d r).2).2) := by
  induction d generalizing i r with
  | nil => rfl
  | cons a ds ih =>
    have hi : i + 1 + ds.length = i + (a :: ds).length := by rw [List.length_cons]; omega
    rw [List.cons_append, cryptFrom_cons, ih, cryptFrom_cons, hi]
    rfl

/-- The index matters modulo 16 only (R125). -/
theorem cryptFrom_mod (cfg : Config) {i j : Nat} (h : i % 16 = j % 16) (d : List Byte) (r : Generator) :
    cryptFrom cfg i d r = cryptFrom cfg j d r := by
  induction d generalizing i j r with
  | nil => rfl
  | cons a ds ih =>
    have h1 : (i + 1) % 16 = (j + 1) % 16 := by omega
    have hr : refill cfg i r = refill cfg j r := by
      unfold refill
      exact if_congr (by rw [Config.blockLength, h]) rfl rfl
    have hk (q : Generator) : keystreamByte q i = keystreamByte q j := by
      simp only [keystreamByte, Config.blockLength, h]
    simp only [cryptFrom_cons, hr, hk, ih h1]

/-- From the start of a buffer, Crypt depends on X, C, b alone (R124); an empty buffer returns the generator as it is. -/
theorem crypt_congr (cfg : Config) {d : List Byte} (hd : d ≠ []) {r q : Generator} (h : SameWorking r q) :
    crypt cfg d r = crypt cfg d q := by
  cases d with
  | nil => exact absurd rfl hd
  | cons a ds =>
    have hr : refill cfg 0 r = refill cfg 0 q := extraction_congr cfg h
    rw [crypt, crypt, cryptFrom_cons, cryptFrom_cons, hr]

/-- Crypt twice from one generator state gives the data back (R131). -/
theorem cryptFrom_involutive (cfg : Config) (i : Nat) (d : List Byte) (r : Generator) :
    (cryptFrom cfg i (cryptFrom cfg i d r).1 r).1 = d := by
  induction d generalizing i r with
  | nil => rfl
  | cons a ds ih =>
    rw [cryptFrom_cons, cryptFrom_cons]
    simp [ih]

/-- The working registers after Crypt, as Steps (R124). -/
theorem cryptFrom_steps (cfg : Config) (i : Nat) (d : List Byte) (r : Generator) :
    ∃ n, SameWorking (cryptFrom cfg i d r).2 (genSteps cfg n r) := by
  induction d generalizing i r with
  | nil => exact ⟨0, rfl, rfl, rfl⟩
  | cons a ds ih =>
    by_cases h : i % 16 = 0
    · rw [cryptFrom_cons, refill_at h]
      obtain ⟨n, hX, hC, hb⟩ := ih (i + 1) (extraction cfg r)
      obtain ⟨kX, kC, kb⟩ := genSteps_same cfg n (extraction_sameWorking cfg r)
      exact ⟨n + 1, hX.trans kX, hC.trans kC, hb.trans kb⟩
    · rw [cryptFrom_cons, refill_between h]
      exact ih (i + 1) r

end Sys2Proof.Machine
end

