-- ==== Sys2Proof/Laws/Commands.lean ====
section
/-! SUPPORT. The checks, the error operation and what `exec` and `step` can do (R16, R61, R139, R140). -/

namespace Sys2Proof.Machine

open Sys2Proof.Safety

theorem requireKey_uninitialized {s : State} (h : s.phase = .U) (k : Result) :
    requireKey s k = .next (s.respond .notKeyInitialized []) := if_pos h

theorem requireKey_keyed {s : State} (h : s.phase ≠ .U) (k : Result) : requireKey s k = k := if_neg h

theorem keyLengthOk_iff (key : List Byte) : keyLengthOk key = true ↔ key.length = 16 := beq_iff_eq

theorem requireKeyLength_ok {key : List Byte} (h : key.length = 16) (s : State) (k : Result) :
    requireKeyLength key s k = k := if_pos ((keyLengthOk_iff key).2 h)

theorem requireKeyLength_wrong {key : List Byte} (h : key.length ≠ 16) (s : State) (k : Result) :
    requireKeyLength key s k = .next (s.respond .invalidKeyLength []) :=
  if_neg (mt (keyLengthOk_iff key).1 h)

@[simp] theorem ivLengthOk_none : ivLengthOk none = true := rfl

theorem ivLengthOk_some (iv : List Byte) : ivLengthOk (some iv) = true ↔ iv.length = 8 := beq_iff_eq

theorem requireIvLength_ok {iv : Option (List Byte)} (h : ivLengthOk iv = true) (s : State) (k : Result) :
    requireIvLength iv s k = k := if_pos h

theorem requireIvLength_wrong {iv : Option (List Byte)} (h : ¬ ivLengthOk iv = true) (s : State) (k : Result) :
    requireIvLength iv s k = .next (s.respond .invalidIVLength []) := if_neg h

/-- The error a command answers, if any: the first check that fails (R137, R139). -/
def errorOf (i : Instr) (p : Phase) : Option Status :=
  match i with
  | .keyinit key => if key.length = 16 then none else some .invalidKeyLength
  | .ivinit iv => if p = .U then some .notKeyInitialized else if ivLengthOk iv then none else some .invalidIVLength
  | .extract => if p = .U then some .notKeyInitialized else none
  | .encrypt _ => if p = .U then some .notKeyInitialized else none
  | .decrypt _ => if p = .U then some .notKeyInitialized else none
  | .encmsg iv _ =>
    if p = .U then some .notKeyInitialized else if ivLengthOk iv then none else some .invalidIVLength
  | .decmsg iv _ =>
    if p = .U then some .notKeyInitialized else if ivLengthOk iv then none else some .invalidIVLength

/-- The registers a command that succeeds leaves, before its response. -/
def effectOf (i : Instr) (s : State) : State :=
  match i with
  | .keyinit key => keySchedule engineConfig key s
  | .ivinit iv => applyIv engineConfig iv s
  | .extract => s.setGen (extraction engineConfig s.gen)
  | .encrypt data => s.setGen (crypt engineConfig data s.gen).2
  | .decrypt data => s.setGen (crypt engineConfig data s.gen).2
  | .encmsg iv data =>
    (applyIv engineConfig iv s).setGen (crypt engineConfig data (applyIv engineConfig iv s).gen).2
  | .decmsg iv data =>
    (applyIv engineConfig iv s).setGen (crypt engineConfig data (applyIv engineConfig iv s).gen).2

/-- The result bytes of a command that succeeds (R61). -/
def resultOf (i : Instr) (s : State) : List Byte :=
  match i with
  | .keyinit _ => []
  | .ivinit _ => []
  | .extract => (extraction engineConfig s.gen).S.toList
  | .encrypt data => (crypt engineConfig data s.gen).1
  | .decrypt data => (crypt engineConfig data s.gen).1
  | .encmsg iv data => (crypt engineConfig data (applyIv engineConfig iv s).gen).1
  | .decmsg iv data => (crypt engineConfig data (applyIv engineConfig iv s).gen).1

/-- ALL THAT `exec` CAN DO: an error is answered and nothing changes, or the effect and its result (R16, R61). -/
theorem exec_eq (i : Instr) (s : State) :
    exec i s =
      match errorOf i s.phase with
      | some e => .next (s.respond e [])
      | none => .next ((effectOf i s).respond .ok (resultOf i s)) := by
  cases i <;>
    simp only [exec, execKeyinit, execIvinit, execExtract, execEncrypt, execDecrypt, execEncmsg, execDecmsg,
      bufferCommand, messageCommand, requireKey, requireKeyLength, requireIvLength, keyLengthOk_iff, errorOf] <;>
    split_ifs <;> rfl

theorem exec_error {i : Instr} {s : State} {e : Status} (h : errorOf i s.phase = some e) :
    exec i s = .next (s.respond e []) := by rw [exec_eq, h]

theorem exec_ok {i : Instr} {s : State} (h : errorOf i s.phase = none) :
    exec i s = .next ((effectOf i s).respond .ok (resultOf i s)) := by rw [exec_eq, h]

/-- No error is the status OK (R132). -/
theorem errorOf_ne_ok {i : Instr} {p : Phase} {e : Status} (h : errorOf i p = some e) : e ≠ .ok := by
  rintro rfl
  cases i <;> simp only [errorOf] at h <;> split_ifs at h <;> cases h

/-- The two ways a command ends. -/
theorem exec_cases {i : Instr} {s t : State} (h : exec i s = .next t) :
    (∃ e, errorOf i s.phase = some e ∧ t = s.respond e []) ∨
      (errorOf i s.phase = none ∧ t = (effectOf i s).respond .ok (resultOf i s)) := by
  rw [exec_eq] at h
  split at h
  · next e he => exact .inl ⟨e, he, (Host.Outcome.next.inj h).symm⟩
  · next he => exact .inr ⟨he, (Host.Outcome.next.inj h).symm⟩

theorem exec_next (i : Instr) (s : State) : ∃ t, exec i s = .next t := by
  rw [exec_eq]
  split
  · exact ⟨_, rfl⟩
  · exact ⟨_, rfl⟩

section
variable (i : Instr) (s : State)

/-! The channels are not a command's own (R40). -/

@[simp] theorem effectOf_cmdIn : (effectOf i s).cmdIn = s.cmdIn := by cases i <;> simp [effectOf]
@[simp] theorem effectOf_resets : (effectOf i s).resets = s.resets := by cases i <;> simp [effectOf]
@[simp] theorem effectOf_responses : (effectOf i s).responses = s.responses := by cases i <;> simp [effectOf]
@[simp] theorem effectOf_draws : (effectOf i s).draws = s.draws := by cases i <;> simp [effectOf]

/-! What a command does does not depend on what is coming on the input channels. -/

theorem effectOf_setInputs (bytes : List Byte) (coming : List ResetEvent) :
    effectOf i (s.setInputs bytes coming) = (effectOf i s).setInputs bytes coming := by
  cases i with
  | ivinit iv => cases iv <;> rfl
  | encmsg iv data => cases iv <;> rfl
  | decmsg iv data => cases iv <;> rfl
  | _ => rfl

theorem resultOf_setInputs (bytes : List Byte) (coming : List ResetEvent) :
    resultOf i (s.setInputs bytes coming) = resultOf i s := by
  cases i with
  | ivinit iv => cases iv <;> rfl
  | encmsg iv data => cases iv <;> rfl
  | decmsg iv data => cases iv <;> rfl
  | _ => rfl

end

theorem exec_setInputs {i : Instr} {s t : State} (h : exec i s = .next t) (bytes : List Byte)
    (coming : List ResetEvent) : exec i (s.setInputs bytes coming) = .next (t.setInputs bytes coming) := by
  rcases exec_cases h with ⟨e, he, rfl⟩ | ⟨he, rfl⟩
  · exact exec_error he
  · rw [exec_ok (by exact he), effectOf_setInputs, resultOf_setInputs]
    rfl

/-- The channels after a command: nothing consumed, no reset, one response more (R61). -/
theorem exec_channels {i : Instr} {s t : State} (h : exec i s = .next t) :
    t.cmdIn = s.cmdIn ∧ t.resets = s.resets ∧ t.draws = s.draws ∧ ∃ r, t.responses = s.responses ++ [r] := by
  rcases exec_cases h with ⟨e, he, rfl⟩ | ⟨he, rfl⟩
  · exact ⟨rfl, rfl, rfl, _, rfl⟩
  · exact ⟨by simp, by simp, by simp, _, by rw [State.respond_responses, effectOf_responses]⟩

/-! ### step -/

theorem step_command {s : State} {i : Instr} {rest : List Byte} (hn : resetDue s.resets = false)
    (h : decode s.cmdIn = .command i rest) : step s = exec i (s.takeFrame rest) := by
  simp only [step, hn, h, Bool.false_eq_true, if_false]

theorem step_illegal {s : State} {why : IllegalReason} {rest : List Byte} (hn : resetDue s.resets = false)
    (h : decode s.cmdIn = .illegal why rest) : step s = .next ((s.takeFrame rest).respond .illegalCommand []) := by
  simp only [step, hn, h, Bool.false_eq_true, if_false]
  rfl

theorem awaitFrame_idle {s : State} (hr : s.resets = []) : awaitFrame s = .next s := by simp only [awaitFrame, hr]

theorem awaitFrame_reset {s : State} {e : ResetEvent} {later : List ResetEvent} (hr : s.resets = e :: later) :
    awaitFrame s = .next (s.resetRegisters.setInputs e.bytes later) := by
  simp only [awaitFrame, hr, assertReset]

theorem step_waits {s : State} (h : decode s.cmdIn = .incomplete) (hr : s.resets = []) : step s = .next s := by
  simp only [step, h, ite_self, awaitFrame_idle hr]

/-- Reset strikes: it is due, whatever stands on the command channel, or no whole frame does (R146, R158). -/
theorem step_reset {s : State} {e : ResetEvent} {later : List ResetEvent} (hr : s.resets = e :: later)
    (h : e.frames = 0 ∨ decode s.cmdIn = .incomplete) : step s = .next (s.resetRegisters.setInputs e.bytes later) := by
  rcases h with h | h
  · have hd : resetDue s.resets = true := by rw [hr]; exact (resetDue_cons e later).2 h
    rw [step, if_pos hd, awaitFrame_reset hr]
  · simp only [step, h, ite_self, awaitFrame_reset hr]

/-- ALL THAT A STEP CAN DO: reset, a command, an illegal frame, or waiting. -/
theorem step_cases (s : State) :
    (∃ i rest, resetDue s.resets = false ∧ decode s.cmdIn = .command i rest ∧ step s = exec i (s.takeFrame rest)) ∨
      (∃ why rest, resetDue s.resets = false ∧ decode s.cmdIn = .illegal why rest ∧
        step s = .next ((s.takeFrame rest).respond .illegalCommand [])) ∨
      (decode s.cmdIn = .incomplete ∧ s.resets = [] ∧ step s = .next s) ∨
      (∃ e later, s.resets = e :: later ∧ (e.frames = 0 ∨ decode s.cmdIn = .incomplete) ∧
        step s = .next (s.resetRegisters.setInputs e.bytes later)) := by
  cases hd : resetDue s.resets with
  | true =>
    obtain ⟨e, later, hr, he⟩ := resetDue_eq_true hd
    exact .inr (.inr (.inr ⟨e, later, hr, .inl he, step_reset hr (.inl he)⟩))
  | false =>
    cases h : decode s.cmdIn with
    | command i rest => exact .inl ⟨i, rest, rfl, rfl, step_command hd h⟩
    | illegal why rest => exact .inr (.inl ⟨why, rest, rfl, rfl, step_illegal hd h⟩)
    | incomplete =>
      cases hr : s.resets with
      | nil => exact .inr (.inr (.inl ⟨rfl, rfl, step_waits h hr⟩))
      | cons e later => exact .inr (.inr (.inr ⟨e, later, rfl, .inr rfl, step_reset hr (.inr h)⟩))

end Sys2Proof.Machine
end

