-- ==== Sys2Proof/Laws/PerInstr.lean ====
section
/-! SUPPORT. What holds of every command as syntax, one lemma per constructor. -/

namespace Sys2Proof.Laws.LegalHeader

/-- The header the encoder writes for a command is legal and selects its own opcode (R65, R67). -/
def Statement (i : Instr) : Prop := i.header.select = .ok i.opcode

theorem keyinit (key : List Byte) : Statement (.keyinit key) := rfl

theorem ivinit (iv : Option (List Byte)) : Statement (.ivinit iv) := by cases iv <;> rfl

theorem extract : Statement .extract := rfl

theorem encrypt (data : List Byte) : Statement (.encrypt data) := rfl

theorem decrypt (data : List Byte) : Statement (.decrypt data) := rfl

theorem encmsg (iv : Option (List Byte)) (data : List Byte) : Statement (.encmsg iv data) := by
  cases iv <;> rfl

theorem decmsg (iv : Option (List Byte)) (data : List Byte) : Statement (.decmsg iv data) := by
  cases iv <;> rfl

end Sys2Proof.Laws.LegalHeader
end

