-- ==== Sys2Proof/Tests/Slice0.lean ====
section
/-! SUPPORT. Tests. Every expected value is printed in spec/95_test_vectors.md, under the id the docstring names, but for
the reset tests (R146, R158);
the frames are those of sections 3 and 4 of spec/30_encoding.md and of 95. The last part has, for every statement with
hypotheses, a concrete case that meets them. -/

namespace Sys2Proof.Tests

/- One theorem after another, so that the tests do not hold many threads at once. It ends with the namespace. -/
set_option Elab.async false

open Sys2Proof Sys2Proof.Machine Sys2Proof.Safety

/-! ### Helpers -/

/-- The next state of a result. -/
def after : Result → Option State
  | .next s => some s
  | .fault _ => none
  | .refused _ => none

/-- The last response after a result. -/
def answer (r : Result) : Option Response := (after r).bind fun s => s.responses.getLast?

/-- X, C, b of a state. -/
def working (s : State) : Words × Words × Carry := (s.X, s.C, s.b)

/-- X, C, b, phase after a result. -/
def leaves (r : Result) : Option (Words × Words × Carry × Phase) := (after r).map fun s => (s.X, s.C, s.b, s.phase)

/-- X and C at the end of T-KEY-1. -/
def zeroKeyX : Words := #v[0x6E9E1D18, 0xF5A54E5C, 0xF8FD49C6, 0x9B94253F, 0xDCD14A79, 0x1F32FA20, 0xD2055921, 0x53F371D0]
def zeroKeyC : Words := #v[0xE802074F, 0x5206296D, 0x01486DF2, 0x67203CE4, 0x23AACE55, 0x26E87A8F, 0xCC2E04F2, 0xD6A0F672]

/-- The end state of T-KEY-1: the all-zero key, phase K. -/
def keyed : State :=
  { State.reset with X := zeroKeyX, C := zeroKeyC, b := 1, MX := zeroKeyX, MC := zeroKeyC, Mb := 1, phase := .K }

/-- The state of T-KAT-2 after its block 1: two blocks into the zero-IV keystream (T-IV-1). -/
def twoBlocksIn : State :=
  { keyed with
    X := #v[0x31ECF5C7, 0xD22189A6, 0x69369AF8, 0x9DFB4130, 0x93AF3DF5, 0xBF4A12B9, 0xD68F3B57, 0xB3CA975A]
    C := #v[0xB73EFB22, 0x45D56661, 0x3E3C3D2F, 0x365D30B3, 0x177A0B49, 0x63DC49CC, 0x9B6AF8C1, 0xCA703366]
    b := 1, phase := .V }

/-- "Rabbit stream cipher!", 21 bytes (section 3.8 of 95). -/
def message : List Byte := [0x52, 0x61, 0x62, 0x62, 0x69, 0x74, 0x20, 0x73, 0x74, 0x72, 0x65, 0x61, 0x6D, 0x20, 0x63, 0x69, 0x70, 0x68, 0x65, 0x72, 0x21]

/-- T-MSG-1's result. -/
def cipherText : List Byte := [0xBF, 0xD6, 0x67, 0x05, 0x5E, 0x29, 0xED, 0x0F, 0xAC, 0xE7, 0x31, 0x99, 0x33, 0x07, 0xC4, 0xAF, 0xFD, 0x22, 0xB9, 0x02, 0x13]

def hello : List Byte := [0x68, 0x65, 0x6C, 0x6C, 0x6F]

/-! ### Well-formedness -/

theorem test_wf_refuses_long_param : (Instr.keyinit (List.replicate 256 0)).wf = false := by decide +kernel
theorem test_wf_accepts_longest_param : (Instr.ivinit (some (List.replicate 255 0))).wf = true := by decide +kernel
theorem test_wf_refuses_long_data_of_length (data : List Byte) (h : data.length = 2 ^ 32) : (Instr.encrypt data).wf = false := by
  simp [Instr.wf, Instr.dataFits, Instr.dataBytes, h]

theorem test_wf_refuses_long_data : (Instr.encrypt (List.replicate (2 ^ 32) 0)).wf = false :=
  test_wf_refuses_long_data_of_length _ List.length_replicate

/-! ### Decoding: header fields DLEN, RSV1, ALEN, RSV0, N, OP written out (R62, R65) -/

theorem test_decode_format_K :
    decode (leBytes 8 (0#32 ++ 0#16 ++ 16#8 ++ 0b000#3 ++ 0b0#1 ++ 0b0001#4).toNat ++ [0x00, 0x01, 0x02, 0x03, 0x04, 0x05, 0x06, 0x07, 0x08, 0x09, 0x0A, 0x0B, 0x0C, 0x0D, 0x0E, 0x0F]) =
      .command (.keyinit [0x00, 0x01, 0x02, 0x03, 0x04, 0x05, 0x06, 0x07, 0x08, 0x09, 0x0A, 0x0B, 0x0C, 0x0D, 0x0E, 0x0F]) [] := by decide +kernel
theorem test_decode_format_V :
    decode (leBytes 8 (0#32 ++ 0#16 ++ 8#8 ++ 0b000#3 ++ 0b0#1 ++ 0b0010#4).toNat ++ [0, 0x11, 0x22, 0x33, 0x44, 0x55, 0x66, 0x77]) =
      .command (.ivinit (some [0, 0x11, 0x22, 0x33, 0x44, 0x55, 0x66, 0x77])) [] := by decide +kernel
theorem test_decode_format_V_none :
    decode (leBytes 8 (0#32 ++ 0#16 ++ 0#8 ++ 0b000#3 ++ 0b1#1 ++ 0b0010#4).toNat) = .command (.ivinit none) [] := by
  decide +kernel
theorem test_decode_format_V_empty :
    decode (leBytes 8 (0#32 ++ 0#16 ++ 0#8 ++ 0b000#3 ++ 0b0#1 ++ 0b0010#4).toNat) = .command (.ivinit (some [])) [] := by
  decide +kernel
theorem test_decode_format_E :
    decode (leBytes 8 (0#32 ++ 0#16 ++ 0#8 ++ 0b000#3 ++ 0b0#1 ++ 0b0011#4).toNat ++ [0x12]) = .command .extract [0x12] := by
  decide +kernel
theorem test_decode_format_D :
    decode (leBytes 8 (5#32 ++ 0#16 ++ 0#8 ++ 0b000#3 ++ 0b0#1 ++ 0b0100#4).toNat ++ hello) = .command (.encrypt hello) [] ∧
    decode (leBytes 8 (5#32 ++ 0#16 ++ 0#8 ++ 0b000#3 ++ 0b0#1 ++ 0b0101#4).toNat ++ hello) = .command (.decrypt hello) [] := by
  decide +kernel
theorem test_decode_format_M :
    decode (leBytes 8 (2#32 ++ 0#16 ++ 8#8 ++ 0b000#3 ++ 0b0#1 ++ 0b0110#4).toNat ++ [0x01, 0x02, 0x03, 0x04, 0x05, 0x06, 0x07, 0x08, 0xAA, 0xBB]) =
      .command (.encmsg (some [1, 2, 3, 4, 5, 6, 7, 8]) [0xAA, 0xBB]) [] ∧
    decode (leBytes 8 (2#32 ++ 0#16 ++ 0#8 ++ 0b000#3 ++ 0b1#1 ++ 0b0111#4).toNat ++ [0xAA, 0xBB]) =
      .command (.decmsg none [0xAA, 0xBB]) [] := by decide +kernel

/-- T-DEC-12: DLEN is little-endian. -/
theorem test_decode_256_bytes :
    decode ([0x04, 0, 0, 0, 0x00, 0x01, 0, 0] ++ List.replicate 256 0x5A) = .command (.encrypt (List.replicate 256 0x5A)) [] := by
  decide +kernel

/-- The frames T-ILL-1 to T-ILL-11. -/
def illegalFrames : List (List Byte) :=
  [ [0x00, 0x00, 0x00, 0x00, 0x00, 0x00, 0x00, 0x00], [0x08, 0x00, 0x00, 0x00, 0x00, 0x00, 0x00, 0x00], [0x0F, 0x00, 0x00, 0x00, 0x00, 0x00, 0x00, 0x00],
    [0x23, 0x00, 0x00, 0x00, 0x00, 0x00, 0x00, 0x00], [0x03, 0x00, 0x01, 0x00, 0x00, 0x00, 0x00, 0x00],
    [0x11, 0x10, 0x00, 0x00, 0x00, 0x00, 0x00, 0x00] ++ List.replicate 16 0, [0x12, 0x08, 0x00, 0x00, 0x00, 0x00, 0x00, 0x00] ++ List.replicate 8 0,
    [0x03, 0x00, 0x00, 0x00, 0x01, 0x00, 0x00, 0x00] ++ [0], [0x04, 0x01, 0x00, 0x00, 0x00, 0x00, 0x00, 0x00] ++ [0],
    [0x01, 0x10, 0x00, 0x00, 0x01, 0x00, 0x00, 0x00] ++ List.replicate 17 0, [0x13, 0x00, 0x00, 0x00, 0x00, 0x00, 0x00, 0x00],
    [0x14, 0x00, 0x00, 0x00, 0x00, 0x00, 0x00, 0x00] ]

/-- T-ILL-1 to T-ILL-11, in phases U and V: IllegalCommand, operand bytes consumed, nothing else changed. -/
theorem test_illegal_frames :
    ∀ f ∈ illegalFrames, ∀ s ∈ [State.reset, twoBlocksIn],
      after (step { s with cmdIn := f ++ [0xEE] }) =
        some { s with cmdIn := [0xEE], responses := [⟨.illegalCommand, []⟩] } := by decide +kernel

/-- The response frames of section 4 of 95. -/
theorem test_response_frames :
    responseFrame ⟨.ok, [0x6A, 0x92, 0x26, 0x70, 0x49]⟩ = [0x00, 0x00, 0x00, 0x00, 0x05, 0x00, 0x00, 0x00, 0x6A, 0x92, 0x26, 0x70, 0x49] ∧
    responseFrame ⟨.invalidKeyLength, []⟩ = [0x01, 0x00, 0x00, 0x00, 0x00, 0x00, 0x00, 0x00] ∧
    responseFrame ⟨.invalidIVLength, []⟩ = [0x02, 0x00, 0x00, 0x00, 0x00, 0x00, 0x00, 0x00] ∧
    responseFrame ⟨.notKeyInitialized, []⟩ = [0x03, 0x00, 0x00, 0x00, 0x00, 0x00, 0x00, 0x00] ∧
    responseFrame ⟨.illegalCommand, []⟩ = [0x04, 0x00, 0x00, 0x00, 0x00, 0x00, 0x00, 0x00] := by decide +kernel

/-! ### Micro-operations -/

/-- A generator with these X, C, b. -/
def genOf (X C : Words) (b : Carry) : Generator := { X := X, C := C, b := b, S := Vector.replicate 16 0 }

/-- C and b after a CounterUpdate. -/
def counted (cfg : Config) (C : Words) (b : Carry) : Words × Carry :=
  let r := counterUpdate cfg (genOf (Vector.replicate 8 0) C b)
  (r.C, r.b)

/-- T-CU-3, T-CU-5, T-CU-7, T-CU-10. -/
theorem test_counter_default :
    counted engineConfig (Vector.replicate 8 0xFFFFFFFF) 0 = (#v[0x4D34D34C, 0xD34D34D3, 0x34D34D34, 0x4D34D34D, 0xD34D34D3, 0x34D34D34, 0x4D34D34D, 0xD34D34D3], 1) ∧
    counted engineConfig #v[0xB2CB2CB3, 0x0, 0x0, 0x0, 0x0, 0x0, 0x0, 0x0] 0 = (#v[0x00000000, 0xD34D34D4, 0x34D34D34, 0x4D34D34D, 0xD34D34D3, 0x34D34D34, 0x4D34D34D, 0xD34D34D3], 0) ∧
    counted engineConfig #v[0xB2CB2CB2, 0x0, 0x0, 0x0, 0x0, 0x0, 0x0, 0x0] 0 = (#v[0xFFFFFFFF, 0xD34D34D3, 0x34D34D34, 0x4D34D34D, 0xD34D34D3, 0x34D34D34, 0x4D34D34D, 0xD34D34D3], 0) ∧
    counted engineConfig #v[0xB2CB2CB3, 0x2CB2CB2C, 0xCB2CB2CB, 0xB2CB2CB2, 0x2CB2CB2C, 0xCB2CB2CB, 0xB2CB2CB2, 0x2CB2CB2C] 0 = (Vector.replicate 8 0, 1) := by
  decide +kernel

/-- T-CU-11. -/
theorem test_counter_other_constants :
    counted { engineConfig with A := #v[0xFFFFFFFF, 0x0, 0xFFFFFFFF, 0x0, 0x0, 0x0, 0x0, 0xFFFFFFF8] } #v[0x1, 0x2, 0x3, 0x4, 0x5, 0x6, 0x7, 0x8] 1 =
      (#v[0x1, 0x3, 0x2, 0x5, 0x5, 0x6, 0x7, 0x0], 1) := by decide +kernel

/-- T-G-5, T-G-7, T-G-8, T-G-10, T-G-11. -/
theorem test_g :
    g 0x00010000 0 = 1 ∧ g 0xFFFFFFFF 0 = 0xFFFFFFFF ∧ g 0xFFFFFFFF 1 = 0 ∧ g 0xFFFFFFFF 0xFFFFFFFF = 0xFFFFFFF8 ∧
      g 0x12345678 0x9ABCDEF0 = 0x2C213949 := by decide +kernel

/-- The rotations printed under T-G-14. -/
theorem test_rotl32 :
    rotl32 0x12345678 8 = 0x34567812 ∧ rotl32 0x12345678 16 = 0x56781234 ∧ rotl32 0x80000001 8 = 0x00000180 ∧
      rotl32 0x80000001 16 = 0x00018000 := by decide +kernel

/-- T-NS-2, T-NS-5. -/
theorem test_nextState :
    (nextState (genOf #v[0x1, 0x2, 0x3, 0x4, 0x5, 0x6, 0x7, 0x8] (Vector.replicate 8 0) 0)).X =
      #v[0x00710001, 0x00000144, 0x00050009, 0x00000914, 0x00190019, 0x00001934, 0x003D0031, 0x00003164] ∧
    (nextState (genOf #v[0x01234567, 0x89ABCDEF, 0xFEDCBA98, 0x76543210, 0x0F1E2D3C, 0x4B5A6978, 0x8796A5B4, 0xC3D2E1F0]
      #v[0x11111111, 0x22222222, 0x33333333, 0x44444444, 0x55555555, 0x66666666, 0x77777777, 0x88888888] 0)).X =
      #v[0xF836EA08, 0x2C25C0F8, 0xF33DC4EC, 0x04CCAA7D, 0xB3FE360F, 0x04F9A05A, 0xF887E636, 0x31D2CEE9] := by decide +kernel

/-- T-EX-1, T-EX-3. -/
theorem test_output :
    outputBlock #v[0x03020100, 0x13121110, 0x23222120, 0x33323130, 0x43424140, 0x53525150, 0x63626160, 0x73727170] =
      #v[0x52, 0x52, 0x32, 0x32, 0x52, 0x52, 0x72, 0x72, 0x52, 0x52, 0x32, 0x32, 0x52, 0x52, 0x72, 0x72] ∧
    outputBlock #v[0x0, 0x0, 0x0, 0x0, 0x0, 0xABCD1234, 0x0, 0x0] = #v[0xCD, 0xAB, 0x00, 0x00, 0x00, 0x00, 0x34, 0x12, 0x00, 0x00, 0x00, 0x00, 0x00, 0x00, 0x00, 0x00] := by
  decide +kernel

/-- The Load row of T-KEY-2. -/
theorem test_keyLoad :
    let r := keyLoad [0x00, 0x01, 0x02, 0x03, 0x04, 0x05, 0x06, 0x07, 0x08, 0x09, 0x0A, 0x0B, 0x0C, 0x0D, 0x0E, 0x0F] (genOf (Vector.replicate 8 7) (Vector.replicate 8 7) 1)
    r.X = #v[0x03020100, 0x0D0C0B0A, 0x07060504, 0x01000F0E, 0x0B0A0908, 0x05040302, 0x0F0E0D0C, 0x09080706] ∧
    r.C = #v[0x09080B0A, 0x03020504, 0x0D0C0F0E, 0x07060908, 0x01000302, 0x0B0A0D0C, 0x05040706, 0x0F0E0100] ∧ r.b = 0 := by decide +kernel

/-- The IV words printed in T-IV-2. -/
theorem test_ivWords :
    ivWords engineConfig [1, 2, 3, 4, 5, 6, 7, 8] =
      #v[0x04030201, 0x08070403, 0x08070605, 0x06050201, 0x04030201, 0x08070403, 0x08070605, 0x06050201] := by decide +kernel

/-! ### Commands, one step each -/

/-- T-KEY-1, from reset. -/
theorem test_keyinit_zero_key :
    after (exec (.keyinit (List.replicate 16 0)) State.reset) = some { keyed with responses := [⟨.ok, []⟩] } := by
  decide +kernel

/-- T-KEY-2, from phase V of another key. -/
theorem test_keyinit_counting_key :
    leaves (exec (.keyinit [0x00, 0x01, 0x02, 0x03, 0x04, 0x05, 0x06, 0x07, 0x08, 0x09, 0x0A, 0x0B, 0x0C, 0x0D, 0x0E, 0x0F]) twoBlocksIn) =
      some (#v[0xA31515F8, 0x5DFD3AC6, 0x33CD6AD2, 0x4BD778E5, 0x89708269, 0xD93095C1, 0x5E495F60, 0xC197863A],
        #v[0xB4ABDA29, 0x89064D90, 0xBE101C81, 0xFA4ED006, 0xED21C3B7, 0x83AA7B19, 0x0A1A3EE8, 0x1795ACA8], 1, .K) := by decide +kernel

/-- T-IV-2. -/
theorem test_ivinit_present :
    leaves (exec (.ivinit (some [0x00, 0x11, 0x22, 0x33, 0x44, 0x55, 0x66, 0x77])) keyed) =
      some (#v[0x289B3D51, 0x0BD17B46, 0xA6555046, 0xD059F795, 0xEAAAE22D, 0x66C93A4C, 0x8357A113, 0x55BA367E],
        #v[0x0FF36386, 0x7294ED9D, 0x497B6D89, 0x67377B19, 0x5DBDB2A2, 0x24DB7E80, 0xF01B9EEB, 0xD119BABF], 1, .V) := by decide +kernel

/-- T-IV-3. -/
theorem test_ivinit_none :
    after (exec (.ivinit none) twoBlocksIn) = some { twoBlocksIn with responses := [⟨.ok, []⟩] } := by decide +kernel

/-- T-EX-5: block 0 of T-KAT-1, and S holds it. -/
theorem test_extract_block :
    answer (exec .extract keyed) = some ⟨.ok, [0x02, 0xF7, 0x4A, 0x1C, 0x26, 0x45, 0x6B, 0xF5, 0xEC, 0xD6, 0xA5, 0x36, 0xF0, 0x54, 0x57, 0xB1]⟩ ∧
    (after (exec .extract keyed)).map State.S = some #v[0x02, 0xF7, 0x4A, 0x1C, 0x26, 0x45, 0x6B, 0xF5, 0xEC, 0xD6, 0xA5, 0x36, 0xF0, 0x54, 0x57, 0xB1] := by decide +kernel

/-- T-EX-5: the state after it is round 1 of T-IV-1. -/
theorem test_extract_state :
    leaves (exec .extract keyed) =
      some (#v[0xB572E827, 0x7F2DDA66, 0x4303151B, 0xFCABA938, 0x8F00A9C1, 0x1F25B668, 0x6B31A85B, 0x503DB9A5],
        #v[0x3536DA9D, 0x25535E41, 0x361BBB27, 0xB4551031, 0xF6F80328, 0x5BBBC7C3, 0x1962D83F, 0xA9EE2B46], 1, .K) := by decide +kernel

/-- T-ENC-4. -/
theorem test_encrypt_two_blocks :
    answer (exec (.encrypt (List.replicate 17 0xFF)) keyed) =
      some ⟨.ok, [0xFD, 0x08, 0xB5, 0xE3, 0xD9, 0xBA, 0x94, 0x0A, 0x13, 0x29, 0x5A, 0xC9, 0x0F, 0xAB, 0xA8, 0x4E, 0x58]⟩ := by decide +kernel

/-- T-ENC-3. -/
theorem test_encrypt_empty :
    after (exec (.encrypt []) keyed) = some { keyed with responses := [⟨.ok, []⟩] } := by decide +kernel

/-- T-ENC-7, the last line. -/
theorem test_decrypt_hello : answer (exec (.decrypt [0x6A, 0x92, 0x26, 0x70, 0x49]) keyed) = some ⟨.ok, hello⟩ := by decide +kernel

/-- T-ENC-6. -/
theorem test_decrypt_uninitialized :
    after (exec (.decrypt [0]) State.reset) = some { State.reset with responses := [⟨.notKeyInitialized, []⟩] } := by
  decide +kernel

/-- T-MSG-1. -/
theorem test_encmsg_zero_iv :
    answer (exec (.encmsg (some (List.replicate 8 0)) message) keyed) = some ⟨.ok, cipherText⟩ ∧
    leaves (exec (.encmsg (some (List.replicate 8 0)) message) keyed) =
      some (twoBlocksIn.X, twoBlocksIn.C, twoBlocksIn.b, .V) := by decide +kernel

/-- T-MSG-4. -/
theorem test_encmsg_none :
    answer (exec (.encmsg none message) twoBlocksIn) =
      some ⟨.ok, [0x34, 0xEE, 0xDD, 0x25, 0xE3, 0xAF, 0x0B, 0x96, 0x6A, 0x1E, 0xBB, 0x48, 0x46, 0xA2, 0xBD, 0x43, 0xC4, 0xE5, 0x4F, 0xB4, 0x77]⟩ := by decide +kernel

/-- T-MSG-2. -/
theorem test_decmsg_zero_iv :
    answer (exec (.decmsg (some (List.replicate 8 0)) cipherText) twoBlocksIn) = some ⟨.ok, message⟩ := by decide +kernel

/-- R139: in phase U the phase check comes before the length check (T-MSG-5); in phase K the length check fails. -/
theorem test_decmsg_error_order :
    (answer (exec (.decmsg (some (List.replicate 7 0)) [1]) State.reset)).map Response.status = some .notKeyInitialized ∧
    (answer (exec (.decmsg (some (List.replicate 7 0)) [1]) keyed)).map Response.status = some .invalidIVLength := by
  decide +kernel

/-- A step takes the frame of EXTRACT (T-DEC-7) off the channel and runs it; the rest stays. -/
theorem test_step_extract :
    (after (step { keyed with cmdIn := [0x03, 0x00, 0x00, 0x00, 0x00, 0x00, 0x00, 0x00, 0x12] })).map State.cmdIn = some [0x12] ∧
    answer (step { keyed with cmdIn := [0x03, 0x00, 0x00, 0x00, 0x00, 0x00, 0x00, 0x00, 0x12] }) = some ⟨.ok, [0x02, 0xF7, 0x4A, 0x1C, 0x26, 0x45, 0x6B, 0xF5, 0xEC, 0xD6, 0xA5, 0x36, 0xF0, 0x54, 0x57, 0xB1]⟩ := by decide +kernel

/-- The host's reading of a row: T-DEC-8's header with zero operand bytes, first after reset. -/
theorem test_table_word :
    decodeTableWord 64 0x0000000500000004 = some (.encrypt (List.replicate 5 0)) ∧
    answer (step (State.reset.withFetchWord 64 0x0000000500000004)) = some ⟨.notKeyInitialized, []⟩ := by decide +kernel

/-- The phase, the channels and the number of responses after a result. -/
def channels (r : Result) : Option (Phase × List Byte × List ResetEvent × Nat) :=
  (after r).map fun s => (s.phase, s.cmdIn, s.resets, s.responses.length)

/-- Reset drops a frame of which only a part has arrived; the host goes on with the next bytes (R158). -/
theorem test_reset_while_received :
    channels (step { keyed with cmdIn := [0x03, 0], resets := [⟨0, [0x12]⟩] }) = some (.U, [0x12], [], 0) := by
  decide +kernel

/-- Reset while the whole frame of EXTRACT is executed: no response (R146, R158). -/
theorem test_reset_while_executed :
    channels (step { keyed with cmdIn := [0x03, 0x00, 0x00, 0x00, 0x00, 0x00, 0x00, 0x00], resets := [⟨0, [0x12]⟩, ⟨3, []⟩] }) =
      some (.U, [0x12], [⟨3, []⟩], 0) := by decide +kernel

/-- Reset after one more frame: EXTRACT is answered, and the assertion is due next. -/
theorem test_reset_after_a_frame :
    channels (step { keyed with cmdIn := [0x03, 0x00, 0x00, 0x00, 0x00, 0x00, 0x00, 0x00], resets := [⟨1, [0x12]⟩] }) =
      some (.K, [], [⟨0, [0x12]⟩], 1) := by decide +kernel

/-! ### Witnesses: a case that meets the hypotheses of each statement -/

/-- Clauses 2 and 3 of HeaderSelectionMatchesOpcodeMap: a header that selects a row, and headers with an unused OP. -/
theorem witness_HeaderSelectionMatchesOpcodeMap :
    (∃ row ∈ opcodeTable, row.selects 0x0000000000001001 = true) ∧ (Header.ofBits 0).OP = 0 ∧
      8 ≤ (Header.ofBits 8).OP.toNat ∧ 8 ≤ (Header.ofBits 15).OP.toNat := by decide +kernel

/-- The premise of the first clause of IllegalHeadersAreRejected, disjunct by disjunct. -/
def illegalClause (h : Header) : Bool :=
  let op := h.OP.toNat
  (op == 0 || 8 ≤ op) || h.RSV0 != 0 || h.RSV1 != 0 ||
    (h.N == 1 && (op == 1 || op == 3 || op == 4 || op == 5)) ||
    (h.ALEN != 0 && (op == 3 || op == 4 || op == 5)) ||
    (h.ALEN != 0 && h.N == 1 && (op == 2 || op == 6 || op == 7)) ||
    (h.DLEN != 0 && (op == 1 || op == 2 || op == 3))

/-- No reset strikes: none is coming, or one more frame comes first; and reset strikes. -/
theorem witness_resetDue :
    resetDue State.reset.resets = false ∧ resetDue [⟨1, [0x03]⟩] = false ∧ resetDue [⟨0, [0x03]⟩] = true := by decide

/-- A frame with its body for each disjunct, the body exactly as long as the header asks, and a legal one. -/
theorem witness_IllegalHeadersAreRejected :
    (∀ p ∈ ([(0, 0), (8, 0), (15, 0), (0x23, 0), (0x10003, 0), (0x1011, 16), (0x0812, 8), (0x0816, 8), (0x0817, 8),
        (0x0103, 1), (0x0104, 1), (0x0105, 1), (0x100000003, 1), (0x100001001, 17), (0x100000002, 1), (0x13, 0), (0x14, 0),
        (0x15, 0)] : List (BitVec 64 × Nat)),
      illegalClause (Header.ofBits p.1) = true ∧ (Header.ofBits p.1).ALEN.toNat + (Header.ofBits p.1).DLEN.toNat ≤ p.2) ∧
    (∀ p ∈ ([(0x1001, 16), (0x12, 0), (0x03, 0), (0x500000004, 5), (0x200000017, 2)] : List (BitVec 64 × Nat)),
      illegalClause (Header.ofBits p.1) = false ∧
        (Header.ofBits p.1).ALEN.toNat + (Header.ofBits p.1).DLEN.toNat ≤ p.2) := by decide +kernel

/-- Every format, at the shortest and the longest parameter. -/
theorem witness_DecodeOfEncodeIsCommand :
    ∀ i ∈ [Instr.keyinit [], .keyinit (List.replicate 255 1), .ivinit none, .ivinit (some []), .extract, .encrypt [],
      .decrypt [1], .encmsg none [2], .decmsg (some [3]) []], i.wf = true := by decide +kernel

theorem witness_DecodedCommandHasOneFrame :
    decode [0x12, 0, 0, 0, 0, 0, 0, 0, 9] = .command (.ivinit none) [9] := by decide +kernel

theorem witness_StepRunsDecodedCommand :
    (Instr.encmsg none [7]).wf = true ∧
      { State.reset with cmdIn := encode (.encmsg none [7]) ++ [1] }.cmdIn = encode (.encmsg none [7]) ++ [1] := by
  decide +kernel

theorem witness_PresentedWordRunsNext :
    decodeTableWord 64 0x0000000000001001 = some (.keyinit (List.replicate 16 0)) := by decide +kernel

/-- Both forms of a partial frame, at their boundaries, without and with a coming reset. -/
theorem witness_PartialFrameWaitsOrIsReset :
    ({ keyed with cmdIn := [] } : State).cmdIn.length < 8 ∧ (List.replicate 7 (0 : Byte)).length < 8 ∧
      (List.replicate 15 (0 : Byte)).length < (Header.ofBits 0x1001).ALEN.toNat + (Header.ofBits 0x1001).DLEN.toNat ∧
      State.reset.resets = [] ∧
      ({ State.reset with resets := [⟨0, [1]⟩, ⟨2, []⟩] } : State).resets = ⟨0, [1]⟩ :: [⟨2, []⟩] ∧
      ({ State.reset with resets := [⟨5, [1]⟩] } : State).resets = ⟨5, [1]⟩ :: [] := by decide +kernel

/-- A whole legal frame and a whole illegal one, where an assertion is due and where none is. -/
theorem witness_ResetAbandonsFrame :
    ({ keyed with cmdIn := [0x03, 0, 0, 0, 0, 0, 0, 0], resets := [⟨0, [0x12]⟩] } : State).resets = ⟨0, [0x12]⟩ :: [] ∧
      decode [0x03, 0, 0, 0, 0, 0, 0, 0] ≠ .incomplete ∧ decode [0, 0, 0, 0, 0, 0, 0, 0] ≠ .incomplete ∧
      ∃ t, step { keyed with cmdIn := [0, 0, 0, 0, 0, 0, 0, 0], resets := [⟨1, []⟩] } = .next t :=
  ⟨rfl, by decide +kernel, by decide +kernel, _, rfl⟩

/-- Clause 1: results of 0 and 16 bytes. Clause 2: a step that answers an error. -/
theorem witness_ResponseFrameLayout :
    ([] : List Byte).length < 2 ^ 32 ∧ keyed.S.toList.length < 2 ^ 32 ∧
    after (step { State.reset with cmdIn := [0x03, 0, 0, 0, 0, 0, 0, 0] }) =
      some { State.reset with responses := [⟨.notKeyInitialized, []⟩] } ∧ Status.notKeyInitialized ≠ .ok := by
  decide +kernel

theorem witness_RotationFormula : 0 < 1 ∧ 31 < 32 ∧ (0 < 8 ∧ 8 < 32) ∧ (0 < 16 ∧ 16 < 32) := by decide

theorem witness_key_of_16_bytes : (List.replicate 16 (0xA5 : Byte)).length = 16 := by decide

theorem witness_KeyinitRejectsWrongLength :
    (List.replicate 15 (0 : Byte)).length ≠ 16 ∧ (List.replicate 17 (0 : Byte)).length ≠ 16 ∧ ([] : List Byte).length ≠ 16 := by
  decide

/-- States in phases K and V, an 8-byte IV and IVs of other lengths. -/
theorem witness_keyed_phase_and_iv :
    keyed.phase ≠ .U ∧ twoBlocksIn.phase ≠ .U ∧ (List.replicate 8 (0 : Byte)).length = 8 ∧
      (List.replicate 7 (0 : Byte)).length ≠ 8 ∧ (List.replicate 9 (0 : Byte)).length ≠ 8 ∧ ([] : List Byte).length ≠ 8 := by
  decide

/-- WrongIvLengthIsRejected, both clauses. -/
theorem witness_WrongIvLengthIsRejected :
    (List.replicate 7 (0 : Byte)).length ≠ 8 ∧ keyed.phase ≠ .U ∧ State.reset.phase = .U ∧
      ∃ bytes, some (List.replicate 8 (0 : Byte)) = some bytes ∧ bytes.length = 8 :=
  ⟨by decide, by decide, rfl, _, rfl, rfl⟩

/-- Two states of one master whose working registers differ. -/
theorem witness_MasterIsolation : SameMaster keyed twoBlocksIn ∧ keyed.X ≠ twoBlocksIn.X := ⟨⟨rfl, rfl, rfl⟩, by decide⟩

/-- An IV operand `none` and one of 8 bytes. -/
theorem witness_MessageFormsAreIvinitThenEncrypt :
    (∀ bytes, (none : Option (List Byte)) = some bytes → bytes.length = 8) ∧
      (∀ bytes, some (List.replicate 8 (1 : Byte)) = some bytes → bytes.length = 8) := by
  constructor
  · intro bytes h; cases h
  · rintro bytes ⟨⟩; rfl

/-- RepetitionGoesOnUnlessIvPresent: phases K and V and an 8-byte IV, `witness_keyed_phase_and_iv`; both clauses at an
empty buffer and at one of more than a block, run twice. -/
theorem witness_RepetitionGoesOnUnlessIvPresent :
    ∀ i ∈ [Instr.encrypt [], .decmsg none message, .encmsg (some (List.replicate 8 0)) message, .decmsg (some (List.replicate 8 0)) []],
      ∃ t u, exec i keyed = .next t ∧ exec i t = .next u :=
  fun i _ => by
    obtain ⟨t, ht⟩ := exec_next i keyed
    obtain ⟨u, hu⟩ := exec_next i t
    exact ⟨t, u, ht, hu⟩

/-- The same position with another S. -/
theorem witness_BufferRoundTripAtSamePosition :
    SameGenerator keyed { keyed with S := Vector.replicate 16 0x77 } ∧ keyed.phase ≠ .U := ⟨⟨rfl, rfl, rfl⟩, by decide⟩

theorem witness_KeystreamIgnoresData : hello.length = [1, 2, 3, 4, (5 : Byte)].length := by decide

theorem witness_SplitAtSixteenChangesNothing :
    (List.replicate 16 (0 : Byte)).length % 16 = 0 ∧ ([] : List Byte).length % 16 = 0 := by decide

/-- One command of each opcode but KEYINIT, in phase U. -/
def otherCommands : List Instr :=
  [.ivinit none, .extract, .encrypt hello, .decrypt [], .encmsg (some [1]) [], .decmsg none hello]

theorem witness_UninitializedRefusesUse :
    State.reset.phase = .U ∧ ∀ i ∈ otherCommands, i.opcode ≠ .keyinit := by decide

/-- The second clause of ErrorsChangeNothing: a step answered with an error is `witness_ResponseFrameLayout`'s, and
`test_illegal_frames` has one for each illegal frame. Its first clause and the error clause of PhaseFollowsLifecycle: commands answered with each error. -/
theorem witness_ErrorsChangeNothing :
    after (exec .extract State.reset) = some { State.reset with responses := [⟨.notKeyInitialized, []⟩] } ∧
    after (exec (.keyinit [1]) keyed) = some { keyed with responses := [⟨.invalidKeyLength, []⟩] } ∧
    after (exec (.encmsg (some [1]) [2]) keyed) = some { keyed with responses := [⟨.invalidIVLength, []⟩] } := by
  decide +kernel

/-- Each command form, succeeding. -/
def goodCommands : List Instr :=
  [.keyinit (List.replicate 16 1), .ivinit (some (List.replicate 8 1)), .ivinit none, .extract, .encrypt hello, .decrypt hello,
    .encmsg (some (List.replicate 8 1)) hello, .encmsg none hello, .decmsg (some (List.replicate 8 1)) hello, .decmsg none hello]

theorem witness_PhaseFollowsLifecycle :
    ∀ i ∈ goodCommands, ∃ t r, exec i keyed = .next t ∧ t.responses = keyed.responses ++ [r] ∧ r.status = .ok := by
  intro i hi
  have h : errorOf i keyed.phase = none := by revert i; decide +kernel
  exact ⟨_, _, exec_ok h, by rw [State.respond_responses, effectOf_responses], rfl⟩

theorem witness_MasterWrittenOnlyByKeyinit : Instr.extract.opcode ≠ .keyinit ∧ ∃ t, exec .extract keyed = .next t :=
  ⟨by decide, exec_next _ _⟩

/-- Other data of the same length, in a state with other registers and the same phase. -/
theorem witness_StatusDependsOnLengthsAndPhase :
    (Instr.encmsg (some [1]) [2]).opcode = (Instr.encmsg (some [3]) [4]).opcode ∧
    (Instr.encmsg (some [1]) [2]).ivAbsent = (Instr.encmsg (some [3]) [4]).ivAbsent ∧
    (Instr.encmsg (some [1]) [2]).paramBytes.length = (Instr.encmsg (some [3]) [4]).paramBytes.length ∧
    (Instr.encmsg (some [1]) [2]).dataBytes.length = (Instr.encmsg (some [3]) [4]).dataBytes.length ∧
    keyed.phase = { keyed with X := zeroKeyC }.phase := by decide

/-- Equivalent states: all registers different in phase U; S different in phase K. -/
theorem witness_HostCannotSeeUnsetRegisters :
    HostEquivalent State.reset { keyed with phase := .U } ∧ HostEquivalent keyed { keyed with S := Vector.replicate 16 1 } :=
  ⟨⟨rfl, rfl, rfl, rfl, fun h => absurd rfl h⟩, ⟨rfl, rfl, rfl, rfl, fun _ => ⟨⟨rfl, rfl, rfl⟩, rfl, rfl, rfl⟩⟩⟩

/-- The state after KEYINIT, in phase K, meets the invariant, and takes a step. -/
theorem witness_LifecycleKeptByStep_K : keyed.phase = .K ∧ Lifecycle engineConfig keyed ∧ ∃ t, step keyed = .next t := by
  refine ⟨rfl, fun _ => ⟨⟨List.replicate 16 0, State.reset, rfl, ?_⟩, 0, ?_⟩, keyed, rfl⟩
  · unfold SameMaster; decide +kernel
  · exact ⟨rfl, rfl, rfl⟩

/-- A state in phase V, two blocks into a keystream, meets it too. -/
theorem witness_LifecycleKeptByStep_V : twoBlocksIn.phase = .V ∧ Lifecycle engineConfig twoBlocksIn := by
  refine ⟨rfl, fun _ => ⟨⟨List.replicate 16 0, State.reset, rfl, ?_⟩, List.replicate 8 0, 2, rfl, ?_⟩⟩
  · unfold SameMaster; decide +kernel
  · unfold SameWorking; decide +kernel

theorem witness_ErrorsCarryNothingKept :
    ErrorsCarryNothing { State.reset with responses := [⟨.notKeyInitialized, []⟩, ⟨.ok, [1]⟩] } := by
  unfold ErrorsCarryNothing; decide

theorem witness_FrameListRunsInOrder :
    (∀ i ∈ otherCommands, i.wf = true) ∧ (∀ e ∈ State.reset.resets.head?, otherCommands.length ≤ e.frames) ∧
      (∀ e ∈ [ResetEvent.mk 6 []].head?, otherCommands.length ≤ e.frames) ∧
      { State.reset with cmdIn := otherCommands.flatMap encode ++ [4] }.cmdIn = otherCommands.flatMap encode ++ [4] := by
  decide +kernel

end Sys2Proof.Tests
end

section
/-! PROOFS. The rotation of R13: as a formula over the naturals, as a movement of bits, and by 16 as the exchange of
the two halves of R10. -/

namespace Sys2Proof.Machine

/-! ### The halves of a word (R10) -/

theorem hi16_toNat (w : Word) : (hi16 w).toNat = w.toNat / 2 ^ 16 := by
  have hw := w.isLt
  rw [hi16, BitVec.extractLsb'_toNat, Nat.shiftRight_eq_div_pow]
  omega

theorem lo16_toNat (w : Word) : (lo16 w).toNat = w.toNat % 2 ^ 16 := by
  rw [lo16, BitVec.extractLsb'_toNat, Nat.shiftRight_zero]

/-! ### The rotation (R13) -/

/-- The bits kept by the left shift stand above the `n` bits that come round, so their union is a sum. -/
theorem rotl32_toNat (w : Word) {n : Nat} (hn : n < 32) :
    (rotl32 w n).toNat = Reference.rotl w.toNat n := by
  have hpow : 2 ^ 32 = 2 ^ n * 2 ^ (32 - n) := by rw [← Nat.pow_add, Nat.add_sub_of_le hn.le]
  have hshifted : w.toNat * 2 ^ n % 2 ^ 32 = 2 ^ n * (w.toNat % 2 ^ (32 - n)) := by
    rw [Nat.mul_comm, hpow, Nat.mul_mod_mul_left]
  have hround : w.toNat / 2 ^ (32 - n) < 2 ^ n :=
    Nat.div_lt_of_lt_mul (by rw [Nat.mul_comm, ← hpow]; exact w.isLt)
  rw [rotl32, BitVec.toNat_rotateLeft, Nat.mod_eq_of_lt hn, Nat.shiftLeft_eq, Nat.shiftRight_eq_div_pow,
    Reference.rotl, hshifted, Nat.two_pow_add_eq_or_of_lt hround]

/-- The lowest `n` bits come round from the top; every other bit moves up by `n`. -/
theorem rotl32_getLsbD (w : Word) {n i : Nat} (hn : n < 32) (hi : i < 32) :
    (rotl32 w n).getLsbD i = w.getLsbD (if i < n then i + 32 - n else i - n) := by
  rw [rotl32, BitVec.getLsbD_rotateLeft, Nat.mod_eq_of_lt hn]
  by_cases hin : i < n
  · have hfrom : 32 - n + i = i + 32 - n := by omega
    simp [hin, hfrom]
  · simp [hin, hi]

theorem rotl32_sixteen (w : Word) : rotl32 w 16 = lo16 w ++ hi16 w := by
  have hw := w.isLt
  apply BitVec.eq_of_toNat_eq
  rw [rotl32_toNat w (by decide), toNat_append_add, lo16_toNat, hi16_toNat, Reference.rotl]
  omega

/-- Settles O16: the three parts of R13 are `rotl32_toNat`, `rotl32_getLsbD` and `rotl32_sixteen`. -/
theorem rotationFormula : Obligations.RotationFormula :=
  ⟨fun w _ _ hn => rotl32_toNat w hn, fun w _ _ _ hn hi => rotl32_getLsbD w hn hi, rotl32_sixteen⟩

end Sys2Proof.Machine
end

section
/-! PROOFS. IVINIT with an IV present: its words as numbers (R46), the state it starts the warm-up from (R96, R97), and
the registers it leaves (R98). -/

namespace Sys2Proof.Machine

/-! ### The IV words and the new counters (R46, R96) -/

theorem ivWord_toNat (m : IvBytes) (iv : List Byte) :
    (ivWord m iv).toNat =
      (iv.getD m.p0.val 0).toNat + 2 ^ 8 * (iv.getD m.p1.val 0).toNat +
        2 ^ 16 * (iv.getD m.p2.val 0).toNat + 2 ^ 24 * (iv.getD m.p3.val 0).toNat := by
  simp only [ivWord, byteAt, toNat_append_add]
  omega

theorem ivWords_getElem (cfg : Config) (iv : List Byte) (j : Fin 8) :
    (ivWords cfg iv)[j] = ivWord cfg.IVMAP[j] iv := by
  simp [ivWords]

/-- A vector given by a function, written out. -/
theorem words_ofFn (f : Fin 8 → Word) : Vector.ofFn f = #v[f 0, f 1, f 2, f 3, f 4, f 5, f 6, f 7] := by
  ext j hj : 1
  rw [Vector.getElem_ofFn]
  interval_cases j <;> rfl

theorem newCounters_eq (cfg : Config) (MC : Words) (iv : List Byte) :
    newCounters cfg MC iv = Vector.ofFn fun j : Fin 8 => MC[j] ^^^ ivWord cfg.IVMAP[j] iv := by
  simp only [newCounters, ivWords_getElem]

/-! ### The registers IVINIT leaves (R97, R98) -/

/-- A micro-operation that keeps S writes X, C and b only. -/
theorem State.setGen_of_keeps_S {s : State} {r : Generator} (hS : r.S = s.S) :
    s.setGen r = { s with X := r.X, C := r.C, b := r.b } := by
  rw [State.setGen, hS]

theorem ivSchedule_eq (cfg : Config) (iv : List Byte) (s : State) :
    ivSchedule cfg iv s =
      { s with
        X := (genSteps cfg 4 (ivLoad cfg iv s)).X
        C := (genSteps cfg 4 (ivLoad cfg iv s)).C
        b := (genSteps cfg 4 (ivLoad cfg iv s)).b
        phase := .V } := by
  rw [ivSchedule, warmUp_eq, State.setGen_of_keeps_S (genSteps_S cfg 4 _), State.setPhase]

theorem errorOf_ivinit_some {iv : List Byte} {p : Phase} (hp : p ≠ .U) (hiv : iv.length = 8) :
    errorOf (.ivinit (some iv)) p = none := by
  rw [errorOf, if_neg hp, if_pos ((ivLengthOk_some iv).2 hiv)]

theorem exec_ivinit_some {iv : List Byte} {s : State} (hp : s.phase ≠ .U) (hiv : iv.length = 8) :
    exec (.ivinit (some iv)) s = .next ((ivSchedule engineConfig iv s).respond .ok []) := by
  rw [exec_ok (errorOf_ivinit_some hp hiv), effectOf, resultOf, applyIv_some]

/-- Settles O25: the IV words are `ivWord`s, so the load written out is `ivLoad`, and the rest is `ivSchedule_eq`. -/
theorem ivinitRestartsFromMaster : Obligations.IvinitRestartsFromMaster := by
  intro iv s hp hiv
  refine ⟨fun j => ivWord engineConfig.IVMAP[j] iv, fun j => ivWord_toNat _ iv, ?_⟩
  intro l w
  have hl : ivLoad engineConfig iv s = l := by
    rw [ivLoad, newCounters_eq, words_ofFn]
    rfl
  rw [exec_ivinit_some hp hiv, ivSchedule_eq, hl, State.respond]

end Sys2Proof.Machine
end

section
/-! PROOFS. Headers (R62, R65): the fields of the eight header bytes, the header of a frame, and the rows of the opcode
map read as conditions on the fields. -/

namespace Sys2Proof

/-! ### The header layout (R62) -/

/-- Both sides are one sum of weighted bytes; byte 0 is the only one that is cut into fields. -/
theorem headerBits_bytes (b0 b1 b2 b3 b4 b5 b6 b7 : Byte) :
    headerBits [b0, b1, b2, b3, b4, b5, b6, b7] =
      Header.toBits
        { OP   := b0.extractLsb' 0 4
          N    := b0.extractLsb' 4 1
          RSV0 := b0.extractLsb' 5 3
          ALEN := b1
          RSV1 := b3 ++ b2
          DLEN := b7 ++ b6 ++ b5 ++ b4 } := by
  have h0 := b0.isLt
  apply BitVec.eq_of_toNat_eq
  simp only [headerBits, leNat_cons, leNat_nil, BitVec.toNat_ofNat, Header.toBits, toNat_append_add,
    BitVec.extractLsb'_toNat, Nat.shiftRight_eq_div_pow]
  omega

theorem Instr.header_N (i : Instr) : i.header.N = 1 ↔ i.ivAbsent = true := by
  show (if i.ivAbsent then (1 : BitVec 1) else 0) = 1 ↔ i.ivAbsent = true
  cases i.ivAbsent <;> decide

/-- Settles O1: the layout is `headerBits_bytes`, and the frame's header bytes are those of `Instr.header`. -/
theorem headerBytesGiveFields : Obligations.HeaderBytesGiveFields := by
  refine ⟨fun b0 b1 b2 b3 b4 b5 b6 b7 => ?_, fun i hwf => ?_⟩
  · rw [headerBits_bytes, Header.ofBits_toBits]
  · refine ⟨leBytes 8 i.header.toBits.toNat, leBytes_length _ _, rfl, ?_⟩
    rw [headerBits_leBytes, Header.ofBits_toBits]
    exact ⟨i.header_ALEN hwf, i.header_DLEN hwf, i.header_N, rfl, rfl⟩

/-! ### The opcode map (R65) -/

/-- The bits of a header that the "must" columns of R64 fix for a format. -/
def Format.mask (f : Format) : BitVec 64 :=
  (if f.hasData then 0#32 else BitVec.allOnes 32) ++ BitVec.allOnes 16 ++
    (if f.hasParam then 0#8 else BitVec.allOnes 8) ++ BitVec.allOnes 3 ++
    (if f.mayBeAbsent then 0#1 else BitVec.allOnes 1) ++ BitVec.allOnes 4

/-- What the fixed bits of a header must hold: the opcode in OP, 0 elsewhere. -/
def Opcode.pattern (op : Opcode) : BitVec 64 := 0#32 ++ 0#16 ++ 0#8 ++ 0#3 ++ 0#1 ++ op.code

/-- The numbers R65 prints are those of the fields. -/
theorem opcodeTable_fields : ∀ row ∈ opcodeTable,
    row.pattern = row.op.pattern ∧ row.mask = row.op.format.mask ∧ row.absentIsBare = row.op.format.mayBeAbsent := by
  decide

theorem exists_opcodeRow (op : Opcode) : ∃ row ∈ opcodeTable, row.op = op := by
  cases op <;> decide

theorem opcodeRow_ext_op : ∀ row ∈ opcodeTable, ∀ other ∈ opcodeTable, row.op = other.op → row = other := by
  decide

/-- A masked field is 0 when it is free or holds 0. -/
theorem and_fieldMask_eq_zero {n : Nat} (free : Bool) (x : BitVec n) :
    x &&& (if free then 0#n else BitVec.allOnes n) = 0#n ↔ (free = false → x = 0#n) := by
  cases free <;> simp [BitVec.and_allOnes]

/-- "H and mask = match", as conditions on the fields (R64, R65). -/
theorem Header.masked_format_iff (h : Header) (op : Opcode) :
    (h.toBits &&& op.format.mask == op.pattern) = true ↔
      (op.format.hasData = false → h.DLEN = 0) ∧ h.RSV1 = 0 ∧ (op.format.hasParam = false → h.ALEN = 0) ∧
        h.RSV0 = 0 ∧ (op.format.mayBeAbsent = false → h.N = 0) ∧ h.OP = op.code := by
  rw [Format.mask, Opcode.pattern, Header.masked_iff]
  simp only [and_fieldMask_eq_zero, BitVec.and_allOnes]
  rfl

/-- The further condition of a row, where there is one: "N = 1 implies ALEN = 0". -/
theorem further_condition_iff (bare : Bool) (n : BitVec 1) (a : BitVec 8) :
    (!bare || !(n == 1) || a == 0) = true ↔ (bare = true → n = 1 → a = 0) := by
  cases bare <;> simp [imp_iff_not_or]

/-- A row of the opcode map selects the headers from which the decoder reads its opcode (R65). -/
theorem OpcodeRow.selects_iff {row : OpcodeRow} (hrow : row ∈ opcodeTable) (H : BitVec 64) :
    row.selects H = true ↔ (Header.ofBits H).select = .ok row.op := by
  obtain ⟨hpattern, hmask, hbare⟩ := opcodeTable_fields row hrow
  have hmasked := (Header.ofBits H).masked_format_iff row.op
  rw [Header.toBits_ofBits] at hmasked
  rw [OpcodeRow.selects, hpattern, hmask, hbare, Bool.and_eq_true, hmasked, further_condition_iff, Header.select_eq_ok,
    Header.fieldProblem_eq_none]
  constructor
  · rintro ⟨⟨hdata, hhigh, hparam, hlow, habsent, hop⟩, hfurther⟩
    refine ⟨hop, hlow, hhigh, habsent, ?_, hdata⟩
    rintro (hnone | hN)
    · exact hparam hnone
    · cases hmay : row.op.format.mayBeAbsent with
      | false => exact absurd (hN.symm.trans (habsent hmay)) (by decide)
      | true => exact hfurther hmay hN
  · rintro ⟨hop, hlow, hhigh, habsent, hparam, hdata⟩
    exact ⟨⟨hdata, hhigh, fun hnone => hparam (.inl hnone), hlow, habsent, hop⟩, fun _ hN => hparam (.inr hN)⟩

/-- Settles O2: row by row by `OpcodeRow.selects_iff`; each opcode has one row, and the other OP values no opcode. -/
theorem headerSelectionMatchesOpcodeMap : Obligations.HeaderSelectionMatchesOpcodeMap := by
  refine ⟨fun H op => ⟨fun h => ?_, ?_⟩, fun H row hrow other hother h k => ?_, fun H op hop h => ?_⟩
  · obtain ⟨row, hrow, rfl⟩ := exists_opcodeRow op
    exact ⟨row, hrow, rfl, (OpcodeRow.selects_iff hrow H).2 h⟩
  · rintro ⟨row, hrow, rfl, h⟩
    exact (OpcodeRow.selects_iff hrow H).1 h
  · have h' := (OpcodeRow.selects_iff hrow H).1 h
    have k' := (OpcodeRow.selects_iff hother H).1 k
    exact opcodeRow_ext_op row hrow other hother (Except.ok.inj (h'.symm.trans k'))
  · have hcode := ((Header.ofBits H).select_eq_ok op).1 h |>.1
    rw [← opcodeOf_eq_none, hcode, opcodeOf_code] at hop
    cases hop

end Sys2Proof
end

section
/-! PROOFS. Responses: the one response of a command (R61, R138), and the bytes of a response (R70). -/

namespace Sys2Proof.Machine

/-! ### The one response of a command (R61) -/

/-- A command that does not fail answers OK with its result, and one that fails its error with no result byte. -/
theorem exec_response {i : Instr} {s t : State} {r : Response} (h : exec i s = .next t)
    (hr : t.responses = s.responses ++ [r]) :
    (∃ e, errorOf i s.phase = some e ∧ t = s.respond e [] ∧ r = ⟨e, []⟩) ∨
      (errorOf i s.phase = none ∧ t = (effectOf i s).respond .ok (resultOf i s) ∧ r = ⟨.ok, resultOf i s⟩) := by
  rcases exec_cases h with ⟨e, he, rfl⟩ | ⟨he, rfl⟩
  · rw [State.respond_responses, List.append_cancel_left_eq, List.singleton_inj] at hr
    exact .inl ⟨e, he, rfl, hr.symm⟩
  · rw [State.respond_responses, effectOf_responses, List.append_cancel_left_eq, List.singleton_inj] at hr
    exact .inr ⟨he, rfl, hr.symm⟩

theorem exec_error_out {i : Instr} {s t : State} {r : Response} (h : exec i s = .next t)
    (hr : t.responses = s.responses ++ [r]) (hne : r.status ≠ .ok) : r.out = [] := by
  rcases exec_response h hr with ⟨e, _, _, rfl⟩ | ⟨_, _, rfl⟩
  · rfl
  · exact absurd rfl hne

/-- IllegalCommand is the answer to a frame, never to a command (R136, R137). -/
theorem errorOf_ne_illegalCommand {i : Instr} {p : Phase} {e : Status} (h : errorOf i p = some e) :
    e ≠ .illegalCommand := by
  rintro rfl
  cases i <;> simp only [errorOf] at h <;> split_ifs at h <;> cases h

/-- Settles O37: one response by `exec_channels`, its status and result by `exec_response`. -/
theorem oneResponsePerCommand : Obligations.OneResponsePerCommand := by
  intro i s
  obtain ⟨t, ht⟩ := exec_next i s
  obtain ⟨-, -, -, r, hr⟩ := exec_channels ht
  refine ⟨t, r, ht, hr, exec_error_out ht hr, ?_⟩
  rcases exec_response ht hr with ⟨e, he, -, rfl⟩ | ⟨-, rfl, rfl⟩
  · exact ⟨errorOf_ne_illegalCommand he, fun hok => absurd hok (errorOf_ne_ok he)⟩
  · refine ⟨by simp, fun _ => ?_⟩
    cases i with
    | keyinit key => rfl
    | ivinit iv => rfl
    | extract =>
      rw [State.respond_S, effectOf, resultOf, State.setGen_S]
      exact ⟨rfl, Vector.length_toList⟩
    | encrypt data => exact crypt_length _ _ _
    | decrypt data => exact crypt_length _ _ _
    | encmsg iv data => exact crypt_length _ _ _
    | decmsg iv data => exact crypt_length _ _ _

/-! ### The bytes of a response (R70) -/

theorem responseHeader_toNat (r : Response) :
    (responseHeader r).toNat = r.out.length % 2 ^ 32 * 2 ^ 32 + (statusCode r.status).toNat := by
  simp only [responseHeader, toNat_append_add, BitVec.ofNat_eq_ofNat, BitVec.toNat_ofNat]
  omega

theorem responseHeader_status (r : Response) : (responseHeader r).extractLsb' 0 8 = statusCode r.status := by
  have hcode := (statusCode r.status).isLt
  apply BitVec.eq_of_toNat_eq
  rw [BitVec.extractLsb'_toNat, responseHeader_toNat, Nat.shiftRight_eq_div_pow]
  omega

theorem responseHeader_reserved (r : Response) : (responseHeader r).extractLsb' 8 24 = 0 := by
  have hcode := (statusCode r.status).isLt
  apply BitVec.eq_of_toNat_eq
  rw [BitVec.extractLsb'_toNat, responseHeader_toNat, Nat.shiftRight_eq_div_pow, BitVec.ofNat_eq_ofNat,
    BitVec.toNat_zero]
  omega

theorem responseHeader_length (r : Response) (h : r.out.length < 2 ^ 32) :
    ((responseHeader r).extractLsb' 32 32).toNat = r.out.length := by
  have hcode := (statusCode r.status).isLt
  rw [BitVec.extractLsb'_toNat, responseHeader_toNat, Nat.shiftRight_eq_div_pow]
  omega

theorem responseFrame_length (r : Response) : (responseFrame r).length = 8 + r.out.length := by
  rw [responseFrame, List.length_append, leBytes_length]
  rfl

/-- Every error response of a step has no result byte (R70, R138): a command's, an illegal frame's; the other steps do
not answer. -/
theorem step_error_out {s t : State} {r : Response} (h : step s = .next t) (hr : t.responses = s.responses ++ [r])
    (hne : r.status ≠ .ok) : r.out = [] := by
  rcases step_cases s with ⟨i, rest, -, -, hs⟩ | ⟨why, rest, -, -, hs⟩ | ⟨-, -, hs⟩ | ⟨e, later, -, -, hs⟩
  · rw [hs] at h
    exact exec_error_out h hr hne
  · obtain rfl := Host.Outcome.next.inj (hs.symm.trans h)
    rw [State.respond_responses, State.takeFrame_responses, List.append_cancel_left_eq, List.singleton_inj] at hr
    exact hr ▸ rfl
  · obtain rfl := Host.Outcome.next.inj (hs.symm.trans h)
    simp at hr
  · obtain rfl := Host.Outcome.next.inj (hs.symm.trans h)
    simp at hr

/-- Settles O12: the fields of `responseHeader`, each by its lemma, and `step_error_out`. -/
theorem responseFrameLayout : Obligations.ResponseFrameLayout := by
  refine ⟨fun r => ⟨responseHeader r, rfl, responseFrame_length r, ?_, responseHeader_reserved r,
    responseHeader_length r⟩, fun s t r h hr hne => step_error_out h hr hne⟩
  rw [responseHeader_status]
  cases r.status <;> rfl

end Sys2Proof.Machine
end

section
/-! PROOFS. IVINIT without an IV (R94), and with an IV of a wrong length (R134): neither writes a register. -/

namespace Sys2Proof.Machine

theorem errorOf_ivinit_none {p : Phase} (hp : p ≠ .U) : errorOf (.ivinit none) p = none := by
  rw [errorOf, if_neg hp, if_pos ivLengthOk_none]

theorem errorOf_ivinit_wrong_length {iv : List Byte} {p : Phase} (hp : p ≠ .U) (hiv : iv.length ≠ 8) :
    errorOf (.ivinit (some iv)) p = some .invalidIVLength := by
  rw [errorOf, if_neg hp, if_neg (mt (ivLengthOk_some iv).1 hiv)]

theorem exec_ivinit_none {s : State} (hp : s.phase ≠ .U) : exec (.ivinit none) s = .next (s.respond .ok []) := by
  rw [exec_ok (errorOf_ivinit_none hp), effectOf, resultOf, applyIv_none]

theorem exec_ivinit_wrong_length {iv : List Byte} {s : State} (hp : s.phase ≠ .U) (hiv : iv.length ≠ 8) :
    exec (.ivinit (some iv)) s = .next (s.respond .invalidIVLength []) :=
  exec_error (errorOf_ivinit_wrong_length hp hiv)

/-- Settles O24: `none` passes the length check and its effect is the state itself; the empty IV fails the check. -/
theorem ivinitNoneChangesNothing : Obligations.IvinitNoneChangesNothing :=
  fun _ hp => ⟨exec_ivinit_none hp, exec_ivinit_wrong_length hp (by decide)⟩

end Sys2Proof.Machine
end

section
/-! PROOFS. CounterUpdate over the naturals: the sum of a counter word, its word and its carry (R103), and the carries
through the eight words (R102). -/

namespace Sys2Proof.Machine

/-! ### One word (R103) -/

/-- Two words and a carry fit in 33 bits (R103). -/
theorem counter_sum_lt (c a : Word) (b : Carry) : c.toNat + a.toNat + b.toNat < 2 ^ 33 := by
  have hc := c.isLt
  have ha := a.isLt
  have hb := b.isLt
  omega

theorem counterSum_toNat (c a : Word) (b : Carry) : (counterSum c a b).toNat = c.toNat + a.toNat + b.toNat := by
  have hlt := counter_sum_lt c a b
  simp only [counterSum, BitVec.toNat_add, BitVec.toNat_setWidth]
  omega

theorem counterWord_toNat (c a : Word) (b : Carry) :
    (counterWord c a b).toNat = (c.toNat + a.toNat + b.toNat) % 2 ^ 32 := by
  rw [counterWord, BitVec.extractLsb'_toNat, Nat.shiftRight_zero, counterSum_toNat]

theorem carryOut_toNat (c a : Word) (b : Carry) :
    (carryOut c a b).toNat = (c.toNat + a.toNat + b.toNat) / 2 ^ 32 := by
  have hlt := counter_sum_lt c a b
  rw [carryOut, BitVec.extractLsb'_toNat, Nat.shiftRight_eq_div_pow, counterSum_toNat]
  omega

/-- Settles O13: the bound is `counter_sum_lt`, and the model's sum, word and carry have their values by their lemmas. -/
theorem counterCarryIsAtMostOne : Obligations.CounterCarryIsAtMostOne := by
  intro c a b temp
  have hlt : temp < 2 ^ 33 := counter_sum_lt c a b
  exact ⟨by omega, by omega, counterSum_toNat c a b, counterWord_toNat c a b, carryOut_toNat c a b⟩

/-! ### The eight words (R102) -/

section
variable (A C : Words) (b : Carry) (j : Fin 8)

theorem counterWords_getElem_toNat :
    ((counterWords A C b)[j]).toNat = (C[j].toNat + A[j].toNat + (carryInto A C b j.val).toNat) % 2 ^ 32 := by
  rw [counterWords_getElem, counterWord_toNat]

theorem carryInto_succ_toNat :
    (carryInto A C b (j.val + 1)).toNat = (C[j].toNat + A[j].toNat + (carryInto A C b j.val).toNat) / 2 ^ 32 := by
  rw [carryInto_succ, carryOut_toNat]

end

/-- Settles O14: the chain of carries is the model's `carryInto`, read as numbers. -/
theorem counterUpdateRipplesCarry : Obligations.CounterUpdateRipplesCarry := fun cfg r =>
  ⟨fun n => (carryInto cfg.A r.C r.b n).toNat, rfl,
    fun j => ⟨counterWords_getElem_toNat cfg.A r.C r.b j, carryInto_succ_toNat cfg.A r.C r.b j⟩, rfl, rfl⟩

end Sys2Proof.Machine
end

section
/-! PROOFS. g and NextState over the naturals: the square that is folded (R107), and the eight lines of the mixing as
one closed form (R110, R111). -/

namespace Sys2Proof.Machine

/-! ### The wrapping additions (R11, R12) -/

theorem add32_toNat (a c : Word) : (add32 a c).toNat = (a.toNat + c.toNat) % 2 ^ 32 := BitVec.toNat_add a c

theorem add32x3_toNat (a c d : Word) : (add32x3 a c d).toNat = (a.toNat + c.toNat + d.toNat) % 2 ^ 32 := by
  rw [add32x3, BitVec.toNat_add, BitVec.toNat_add, Nat.mod_add_mod]

theorem add32_comm (a c : Word) : add32 a c = add32 c a := BitVec.add_comm a c

theorem add32_zero (a : Word) : add32 a 0 = a := BitVec.add_zero a

/-! ### g (R107) -/

/-- 64 bits hold the square of a word, so no bit of it is lost. -/
theorem square_toNat (s : Word) : (s.setWidth 64 * s.setWidth 64).toNat = s.toNat * s.toNat := by
  have hs : s.toNat < 2 ^ 32 := s.isLt
  have hsq : s.toNat * s.toNat < 2 ^ 32 * 2 ^ 32 := Nat.mul_lt_mul'' hs hs
  rw [BitVec.toNat_mul, BitVec.toNat_setWidth_of_le (by decide)]
  exact Nat.mod_eq_of_lt hsq

theorem fold_toNat (sq : BitVec 64) :
    (sq.extractLsb' 0 32 ^^^ sq.extractLsb' 32 32).toNat = (sq.toNat % 2 ^ 32) ^^^ (sq.toNat / 2 ^ 32) := by
  have hhigh : sq.toNat / 2 ^ 32 < 2 ^ 32 := Nat.div_lt_of_lt_mul sq.isLt
  rw [BitVec.toNat_xor, BitVec.extractLsb'_toNat, BitVec.extractLsb'_toNat, Nat.shiftRight_zero,
    Nat.shiftRight_eq_div_pow, Nat.mod_eq_of_lt hhigh]

theorem g_toNat (u v : Word) : (g u v).toNat = Reference.g u.toNat v.toNat := by
  rw [g, fold_toNat, square_toNat, add32_toNat, Reference.g]

/-- g reads its arguments through their sum only. -/
theorem g_congr {u v u' v' : Word} (h : add32 u v = add32 u' v') : g u v = g u' v' := by
  rw [g, g, h]

/-- Settles O17: the formula is `g_toNat`; both equalities are `g_congr`, for the same sum. -/
theorem mixerFoldsWholeSquare : Obligations.MixerFoldsWholeSquare := fun u v =>
  ⟨g_toNat u v, g_congr (add32_comm u v), g_congr (add32_zero (add32 u v)).symm⟩

/-! ### NextState (R110) -/

theorem gWords_getElem (X C : Words) (j : Fin 8) : (gWords X C)[j] = g X[j] C[j] := by
  simp [gWords]

theorem gWords_getElem_toNat (X C : Words) (j : Fin 8) :
    ((gWords X C)[j]).toNat = Reference.g X[j].toNat C[j].toNat := by
  rw [gWords_getElem, g_toNat]

/-- The eight lines of R110 as one closed form, the indices taken modulo 8 (R111). -/
theorem mixWords_getElem (G : Words) (j : Fin 8) :
    (mixWords G)[j] =
      if j.val % 2 = 0 then add32x3 G[j] (rotl32 G[j + 7] 16) (rotl32 G[j + 6] 16)
      else add32x3 G[j] (rotl32 G[j + 7] 8) G[j + 6] := by
  fin_cases j <;> rfl

theorem mixWords_getElem_toNat (G : Words) (j : Fin 8) :
    ((mixWords G)[j]).toNat =
      if j.val % 2 = 0 then
        (G[j].toNat + Reference.rotl G[j + 7].toNat 16 + Reference.rotl G[j + 6].toNat 16) % 2 ^ 32
      else (G[j].toNat + Reference.rotl G[j + 7].toNat 8 + G[j + 6].toNat) % 2 ^ 32 := by
  rw [mixWords_getElem]
  split
  · rw [add32x3_toNat, rotl32_toNat _ (by decide), rotl32_toNat _ (by decide)]
  · rw [add32x3_toNat, rotl32_toNat _ (by decide)]

/-- Settles O18: each line is the closed form at its index, with the G words as numbers. -/
theorem nextStateMixesOldWords : Obligations.NextStateMixesOldWords := by
  intro q G r t
  have hG : ∀ j : Fin 8, ((gWords q.X q.C)[j]).toNat = G j := gWords_getElem_toNat q.X q.C
  have line : ∀ j : Fin 8, t.X[j].toNat =
      if j.val % 2 = 0 then (G j + r (G (j + 7)) 16 + r (G (j + 6)) 16) % 2 ^ 32
      else (G j + r (G (j + 7)) 8 + G (j + 6)) % 2 ^ 32 := by
    intro j
    rw [nextState_X, mixWords_getElem_toNat, hG, hG, hG]
  have even := fun j hj => (line j).trans (if_pos hj)
  have odd := fun j hj => (line j).trans (if_neg hj)
  exact ⟨even 0 rfl, odd 1 (by decide), even 2 rfl, odd 3 (by decide), even 4 rfl, odd 5 (by decide), even 6 rfl,
    odd 7 (by decide), rfl⟩

end Sys2Proof.Machine
end

section
/-! PROOFS. Extraction: the bytes of the keystream block as bytes of X (R118), and EXTRACT as one Step followed by the
output function (R116, R117). -/

namespace Sys2Proof.Machine

/-! ### The bytes of a halfword (R10, R47) -/

/-- A field inside a field of a bit vector, wherever the outer field starts. -/
theorem extractLsb'_extractLsb'_start_add {n : Nat} (x : BitVec n) (start : Nat) {len i k : Nat} (h : i + k ≤ len) :
    (x.extractLsb' start len).extractLsb' i k = x.extractLsb' (start + i) k := by
  ext j hj
  have hin : i + j < len := by omega
  simp only [BitVec.getElem_extractLsb', BitVec.getLsbD_extractLsb', hin, decide_true, Bool.true_and, Nat.add_assoc]

section
variable (w : Word) (h k : Half)

theorem lowByte_lo16 : lowByte (lo16 w) = w.extractLsb' 0 8 := extractLsb'_extractLsb'_start_add w 0 (by decide)

theorem highByte_lo16 : highByte (lo16 w) = w.extractLsb' 8 8 := extractLsb'_extractLsb'_start_add w 0 (by decide)

theorem lowByte_hi16 : lowByte (hi16 w) = w.extractLsb' 16 8 := extractLsb'_extractLsb'_start_add w 16 (by decide)

theorem highByte_hi16 : highByte (hi16 w) = w.extractLsb' 24 8 := extractLsb'_extractLsb'_start_add w 16 (by decide)

theorem lowByte_xor : lowByte (h ^^^ k) = lowByte h ^^^ lowByte k := BitVec.extractLsb'_xor

theorem highByte_xor : highByte (h ^^^ k) = highByte h ^^^ highByte k := BitVec.extractLsb'_xor

end

/-! ### The output function (R118) -/

/-- Packing eight halfwords that are written out, each to its two bytes (R47). -/
theorem packHalves_mk (h0 h1 h2 h3 h4 h5 h6 h7 : Half) :
    packHalves #v[h0, h1, h2, h3, h4, h5, h6, h7] =
      #v[lowByte h0, highByte h0, lowByte h1, highByte h1, lowByte h2, highByte h2, lowByte h3, highByte h3,
         lowByte h4, highByte h4, lowByte h5, highByte h5, lowByte h6, highByte h6, lowByte h7, highByte h7] := rfl

/-- Settles O20: the rows of the pairing table are packed by `packHalves_mk`; a byte of an exclusive-or is the
exclusive-or of the bytes, and a byte of a half is a byte of the word. -/
theorem outputFunctionPairsHalves : Obligations.OutputFunctionPairsHalves := by
  intro X low lowHigh highLow high
  rw [outputBlock, outputHalves, packHalves_mk]
  simp only [lowByte_xor, highByte_xor, lowByte_lo16, highByte_lo16, lowByte_hi16, highByte_hi16]
  rfl

/-! ### EXTRACT (R116, R117) -/

theorem exec_extract {s : State} (hp : s.phase ≠ .U) :
    exec .extract s =
      .next ((s.setGen (extraction engineConfig s.gen)).respond .ok (extraction engineConfig s.gen).S.toList) :=
  exec_ok (i := .extract) (if_neg hp)

/-- Settles O29: EXTRACT commits one Extraction, whose Step is `nextState` after `counterUpdate`; NextState keeps the
C and b that CounterUpdate wrote. -/
theorem extractAdvancesOneStep : Obligations.ExtractAdvancesOneStep := by
  intro s hp c X S
  have hstep : genStep engineConfig s.gen = nextState c := rfl
  rw [exec_extract hp, extraction_eq, hstep, nextState_C, nextState_b, State.setGen, State.respond]

end Sys2Proof.Machine
end

section
/-! PROOFS. Crypt in closed form: after `m` bytes of a command ceil(m/16) Extractions are made, and byte `n` is xored
with the block of Extraction number n div 16 + 1 (R123); ENCRYPT and DECRYPT are Crypt (R122, R127). -/

namespace Sys2Proof.Machine

/-! ### The generator along a buffer (R123) -/

/-- The refill before data byte `i`, from the generator that the first `i` bytes left: a fresh Extraction at the start
of a block, the Extraction already made between. -/
theorem refill_extractions (cfg : Config) (i : Nat) (r : Generator) :
    refill cfg i ((extraction cfg)^[(i + 15) / 16] r) = (extraction cfg)^[i / 16 + 1] r := by
  by_cases h : i % 16 = 0
  · have hcount : (i + 15) / 16 = i / 16 := by omega
    rw [refill_at h, hcount, Function.iterate_succ_apply']
  · have hcount : (i + 15) / 16 = i / 16 + 1 := by omega
    rw [refill_between h, hcount]

/-- One byte of Crypt's loop, from the generator that the first `i` bytes left to the one that `i + 1` bytes leave. -/
theorem cryptFrom_cons_extractions (cfg : Config) (i : Nat) (d : Byte) (ds : List Byte) (r : Generator) :
    cryptFrom cfg i (d :: ds) ((extraction cfg)^[(i + 15) / 16] r) =
      ((d ^^^ keystreamByte ((extraction cfg)^[i / 16 + 1] r) i) ::
          (cryptFrom cfg (i + 1) ds ((extraction cfg)^[(i + 1 + 15) / 16] r)).1,
        (cryptFrom cfg (i + 1) ds ((extraction cfg)^[(i + 1 + 15) / 16] r)).2) := by
  have hcount : (i + 1 + 15) / 16 = i / 16 + 1 := by omega
  rw [cryptFrom_cons, refill_extractions, hcount]

theorem cryptFrom_gen_extractions (cfg : Config) (i : Nat) (data : List Byte) (r : Generator) :
    (cryptFrom cfg i data ((extraction cfg)^[(i + 15) / 16] r)).2 =
      (extraction cfg)^[(i + data.length + 15) / 16] r := by
  induction data generalizing i with
  | nil => rfl
  | cons d ds ih =>
    have hlen : i + 1 + ds.length = i + (d :: ds).length := by rw [List.length_cons]; omega
    rw [cryptFrom_cons_extractions, ih, hlen]

theorem cryptFrom_getD_extractions (cfg : Config) (i : Nat) {data : List Byte} (r : Generator) {n : Nat}
    (hn : n < data.length) :
    (cryptFrom cfg i data ((extraction cfg)^[(i + 15) / 16] r)).1.getD n 0 =
      data.getD n 0 ^^^ keystreamByte ((extraction cfg)^[(i + n) / 16 + 1] r) (i + n) := by
  induction data generalizing i n with
  | nil => exact absurd hn (Nat.not_lt_zero n)
  | cons d ds ih =>
    rw [cryptFrom_cons_extractions]
    cases n with
    | zero => rfl
    | succ n =>
      have hidx : i + (n + 1) = i + 1 + n := by omega
      rw [List.getD_cons_succ, List.getD_cons_succ, ih (i + 1) (Nat.lt_of_succ_lt_succ hn), hidx]

/-! ### Crypt, whose index starts at 0 (R123, R125) -/

theorem crypt_gen (cfg : Config) (data : List Byte) (r : Generator) :
    (crypt cfg data r).2 = (extraction cfg)^[(data.length + 15) / 16] r := by
  simpa [crypt] using cryptFrom_gen_extractions cfg 0 data r

theorem crypt_getD (cfg : Config) {data : List Byte} (r : Generator) {n : Nat} (hn : n < data.length) :
    (crypt cfg data r).1.getD n 0 =
      data.getD n 0 ^^^ ((extraction cfg)^[n / 16 + 1] r).S.getD (n % 16) 0 := by
  have h := cryptFrom_getD_extractions cfg 0 r hn
  rw [Nat.zero_add n] at h
  exact h

/-! ### ENCRYPT and DECRYPT (R122, R127) -/

theorem exec_bufferCommand {data : List Byte} {i : Instr} {s : State} (hp : s.phase ≠ .U)
    (hi : i = .encrypt data ∨ i = .decrypt data) :
    exec i s =
      .next ((s.setGen (crypt engineConfig data s.gen).2).respond .ok (crypt engineConfig data s.gen).1) := by
  obtain rfl | rfl := hi
  · exact exec_ok (i := .encrypt data) (if_neg hp)
  · exact exec_ok (i := .decrypt data) (if_neg hp)

/-- Settles O30: the result is Crypt's, whose length, bytes and generator are `crypt_length`, `crypt_getD`, `crypt_gen`. -/
theorem bufferCommandsXorKeystream : Obligations.BufferCommandsXorKeystream := by
  intro data i s hp hi
  refine ⟨(crypt engineConfig data s.gen).1, crypt_length _ _ _, fun n hn => crypt_getD _ _ hn, ?_⟩
  intro t
  rw [exec_bufferCommand hp hi, crypt_gen, State.setGen, State.respond]

end Sys2Proof.Machine
end

section
/-! PROOFS. When each error of a command is raised: NotKeyInitialized (R135), InvalidIVLength (R134) and
InvalidKeyLength (R133). -/

namespace Sys2Proof.Machine

/-! ### NotKeyInitialized (R135) -/

/-- The phase check comes first in every command that has one (R139). -/
theorem errorOf_uninitialized {i : Instr} (hi : i.opcode ≠ .keyinit) : errorOf i .U = some .notKeyInitialized := by
  cases i with
  | keyinit key => exact absurd rfl hi
  | _ => rfl

/-- Settles O36: the error is `errorOf_uninitialized`, and an error changes nothing. -/
theorem uninitializedRefusesUse : Obligations.UninitializedRefusesUse := by
  intro i s hs hi
  exact exec_error (hs ▸ errorOf_uninitialized hi)

/-! ### InvalidIVLength (R134) -/

theorem ivLengthOk_eq_false_iff (iv : Option (List Byte)) :
    ivLengthOk iv = false ↔ ∃ bytes, iv = some bytes ∧ bytes.length ≠ 8 := by
  cases iv with
  | none => simp
  | some bytes => simp [← ivLengthOk_some]

/-- The three commands with an IV operand make the same two checks, in the same order (R139). -/
theorem errorOf_ivCommand {iv : Option (List Byte)} {data : List Byte} {i : Instr}
    (hi : i = .ivinit iv ∨ i = .encmsg iv data ∨ i = .decmsg iv data) (p : Phase) :
    errorOf i p =
      if p = .U then some .notKeyInitialized else if ivLengthOk iv then none else some .invalidIVLength := by
  obtain rfl | rfl | rfl := hi
  · rfl
  · rfl
  · rfl

theorem errorOf_ivCommand_eq_invalidIVLength_iff {iv : Option (List Byte)} {data : List Byte} {i : Instr}
    (hi : i = .ivinit iv ∨ i = .encmsg iv data ∨ i = .decmsg iv data) (p : Phase) :
    errorOf i p = some .invalidIVLength ↔ p ≠ .U ∧ ∃ bytes, iv = some bytes ∧ bytes.length ≠ 8 := by
  rw [errorOf_ivCommand hi, ← ivLengthOk_eq_false_iff]
  by_cases hp : p = .U
  · simp [hp]
  · cases ivLengthOk iv <;> simp [hp]

/-- A command answers no error but the one that `errorOf` gives. -/
theorem exec_status_ne {i : Instr} {s : State} {e : Status} (he : errorOf i s.phase ≠ some e) (hok : e ≠ .ok) :
    ∃ t r, exec i s = .next t ∧ t.responses = s.responses ++ [r] ∧ r.status ≠ e := by
  obtain ⟨t, ht⟩ := exec_next i s
  obtain ⟨-, -, -, r, hr⟩ := exec_channels ht
  refine ⟨t, r, ht, hr, ?_⟩
  obtain ⟨f, hf, -, rfl⟩ | ⟨-, -, rfl⟩ := exec_response ht hr
  · rintro rfl
    exact he hf
  · exact hok.symm

/-- Settles O26: `errorOf_ivCommand_eq_invalidIVLength_iff` says when the error is raised; each condition of the second
clause contradicts its right-hand side. -/
theorem wrongIvLengthIsRejected : Obligations.WrongIvLengthIsRejected := by
  intro iv data i s hi
  have hraised := errorOf_ivCommand_eq_invalidIVLength_iff hi s.phase
  refine ⟨fun bytes hiv hlen hp => exec_error (hraised.2 ⟨hp, bytes, hiv, hlen⟩), fun h => ?_⟩
  refine exec_status_ne (fun he => ?_) (by decide)
  obtain ⟨hp, bytes, rfl, hlen⟩ := hraised.1 he
  obtain hU | hnone | ⟨_, ⟨⟩, hlen8⟩ := h
  · exact hp hU
  · cases hnone
  · exact hlen hlen8

/-! ### InvalidKeyLength (R133) -/

theorem exec_keyinit_wrong_length {key : List Byte} (hkey : key.length ≠ 16) (s : State) :
    exec (.keyinit key) s = .next (s.respond .invalidKeyLength []) :=
  exec_error (i := .keyinit key) (if_neg hkey)

theorem exec_keyinit {key : List Byte} (hkey : key.length = 16) (s : State) :
    exec (.keyinit key) s = .next ((keySchedule engineConfig key s).respond .ok []) :=
  exec_ok (i := .keyinit key) (if_pos hkey)

/-- Settles O22: the length check decides between the two outcomes, and the key schedule does not answer. -/
theorem keyinitRejectsWrongLength : Obligations.KeyinitRejectsWrongLength := by
  intro key s
  refine ⟨fun hkey => exec_keyinit_wrong_length hkey s, fun hkey => ⟨_, exec_keyinit hkey s, ?_⟩⟩
  rw [State.respond_responses, keySchedule_responses]

end Sys2Proof.Machine
end

section
/-! PROOFS. Decoder and encoder as inverses of each other (R63, R71): what the decoder reads of a whole frame, and the
frame of the command it reads. -/

namespace Sys2Proof

/-! ### What the decoder reads after a header (R63, R67) -/

theorem decodeBody_illegal {h : Header} {body : List Byte} {why : IllegalReason}
    (hlen : h.operandLength ≤ body.length) (hsel : h.select = .error why) :
    decodeBody h body = .illegal why (body.drop h.operandLength) := by
  simp only [decodeBody, if_neg (Nat.not_lt.2 hlen), hsel]

theorem decodeBody_command {h : Header} {body : List Byte} {op : Opcode}
    (hlen : h.operandLength ≤ body.length) (hsel : h.select = .ok op) :
    decodeBody h body =
      .command
        (buildInstr op h (body.take h.ALEN.toNat) ((body.drop h.ALEN.toNat).take h.DLEN.toNat))
        (body.drop h.operandLength) := by
  simp only [decodeBody, if_neg (Nat.not_lt.2 hlen), hsel]

theorem decodeBody_incomplete {h : Header} {body : List Byte} (hlen : body.length < h.operandLength) :
    decodeBody h body = .incomplete := if_pos hlen

/-- A command is read only from a legal header and its operand bytes, which the bytes left follow. -/
theorem decodeBody_eq_command {h : Header} {body rest : List Byte} {i : Instr}
    (hdec : decodeBody h body = .command i rest) :
    ∃ op param data, h.select = .ok op ∧ param.length = h.ALEN.toNat ∧ data.length = h.DLEN.toNat ∧
      body = param ++ (data ++ rest) ∧ i = buildInstr op h param data := by
  by_cases hlen : body.length < h.operandLength
  · rw [decodeBody_incomplete hlen] at hdec
    cases hdec
  have hle := Nat.not_lt.1 hlen
  cases hsel : h.select with
  | error why =>
    rw [decodeBody_illegal hle hsel] at hdec
    cases hdec
  | ok op =>
    rw [decodeBody_command hle hsel] at hdec
    obtain ⟨rfl, rfl⟩ := Decoded.command.inj hdec
    rw [Header.operandLength] at hle
    refine ⟨op, _, _, rfl, ?_, ?_, ?_, rfl⟩
    · rw [List.length_take]
      omega
    · rw [List.length_take, List.length_drop]
      omega
    · rw [Header.operandLength, ← List.drop_drop, List.take_append_drop, List.take_append_drop]

/-! ### Decode after encode -/

/-- Settles O5: the header read back is the command's own, its lengths cut the operands out of the body, and
`Instr.build_self` puts the command together. -/
theorem decodeOfEncodeIsCommand : Obligations.DecodeOfEncodeIsCommand := by
  intro i rest hwf
  have hA := i.header_ALEN hwf
  have hD := i.header_DLEN hwf
  have hlen : i.header.operandLength = (i.paramBytes ++ i.dataBytes).length := by
    rw [Header.operandLength, hA, hD, List.length_append]
  have hwhole : i.header.operandLength ≤ (i.paramBytes ++ i.dataBytes ++ rest).length := by
    rw [hlen, List.length_append (bs := rest)]
    exact Nat.le_add_right _ _
  have hframe : encode i ++ rest = leBytes 8 i.header.toBits.toNat ++ (i.paramBytes ++ i.dataBytes ++ rest) := by
    simp only [encode, Config.headerLength, List.append_assoc]
  rw [hframe, decode_header_append, Header.ofBits_toBits, decodeBody_command hwhole i.header_select, hlen, hA, hD,
    List.drop_left, List.append_assoc, List.take_left, List.drop_left, List.take_left, i.build_self]

theorem decode_of_encode_eq {i : Instr} {frame : List Byte} (hwf : i.wf = true) (hframe : encode i = frame) :
    decode frame = .command i [] := by
  rw [← decodeOfEncodeIsCommand i [] hwf, List.append_nil, hframe]

/-- Settles O4: each printed frame is the encoder's frame of the command beside it. -/
theorem workedFramesDecode : Obligations.WorkedFramesDecode := by
  refine ⟨?_, ?_, ?_, ?_, ?_, ?_, ?_, ?_⟩ <;> exact decode_of_encode_eq (by decide) (by decide)

/-! ### Encode after decode: a legal header leaves no bit free (R64, R71) -/

theorem ivOperand_isNone (h : Header) (param : List Byte) : (ivOperand h param).isNone = (h.N == 1) := by
  by_cases hN : h.N = 1
  · rw [ivOperand, if_pos hN, hN]
    rfl
  · rw [ivOperand, if_neg hN, Option.isNone_some, beq_eq_false_iff_ne.2 hN]

theorem ivOperand_getD {h : Header} {param : List Byte} (hbare : h.N = 1 → param = []) :
    (ivOperand h param).getD [] = param := by
  by_cases hN : h.N = 1
  · rw [ivOperand, if_pos hN, hbare hN, Option.getD_none]
  · rw [ivOperand, if_neg hN, Option.getD_some]

section
variable (op : Opcode) {h : Header} {param data : List Byte}

theorem buildInstr_opcode : (buildInstr op h param data).opcode = op := by cases op <;> rfl

theorem buildInstr_ivAbsent : (buildInstr op h param data).ivAbsent = (op.format.mayBeAbsent && h.N == 1) := by
  cases op with
  | ivinit => exact ivOperand_isNone h param
  | encmsg => exact ivOperand_isNone h param
  | decmsg => exact ivOperand_isNone h param
  | _ => rfl

theorem buildInstr_paramBytes (hbare : op.format.hasParam = false ∨ h.N = 1 → param = []) :
    (buildInstr op h param data).paramBytes = param := by
  cases op with
  | keyinit => rfl
  | ivinit => exact ivOperand_getD fun hN => hbare (.inr hN)
  | encmsg => exact ivOperand_getD fun hN => hbare (.inr hN)
  | decmsg => exact ivOperand_getD fun hN => hbare (.inr hN)
  | _ => exact (hbare (.inl rfl)).symm

theorem buildInstr_dataBytes (hnone : op.format.hasData = false → data = []) :
    (buildInstr op h param data).dataBytes = data := by
  cases op with
  | keyinit => exact (hnone rfl).symm
  | ivinit => exact (hnone rfl).symm
  | extract => exact (hnone rfl).symm
  | _ => rfl

end

/-- N of a legal header says that the IV is absent, in the formats that have one, and is 0 in the others. -/
theorem Header.N_eq_absent {h : Header} {mayBeAbsent : Bool} (hN : mayBeAbsent = false → h.N = 0) :
    (if (mayBeAbsent && h.N == 1) = true then 1 else 0) = h.N := by
  generalize h.N = n at hN ⊢
  revert n mayBeAbsent
  decide

/-- The command read from a legal header has that header and those operands. -/
theorem buildInstr_of_select {h : Header} {op : Opcode} {param data : List Byte} (hsel : h.select = .ok op)
    (hparam : param.length = h.ALEN.toNat) (hdata : data.length = h.DLEN.toNat) :
    (buildInstr op h param data).header = h ∧ (buildInstr op h param data).paramBytes = param ∧
      (buildInstr op h param data).dataBytes = data := by
  obtain ⟨hop, hlegal⟩ := (h.select_eq_ok op).1 hsel
  obtain ⟨hlow, hhigh, hN, hbare, hnone⟩ := (h.fieldProblem_eq_none _).1 hlegal
  have hp : (buildInstr op h param data).paramBytes = param :=
    buildInstr_paramBytes op fun hor => by
      rw [← List.length_eq_zero_iff, hparam, hbare hor]
      rfl
  have hd : (buildInstr op h param data).dataBytes = data :=
    buildInstr_dataBytes op fun hno => by
      rw [← List.length_eq_zero_iff, hdata, hnone hno]
      rfl
  refine ⟨?_, hp, hd⟩
  rw [Instr.header, hp, hd, buildInstr_opcode, buildInstr_ivAbsent, Header.N_eq_absent hN, hparam, hdata,
    BitVec.ofNat_toNat, BitVec.ofNat_toNat, BitVec.setWidth_eq, BitVec.setWidth_eq, ← hop, ← hlow, ← hhigh]

/-- Settles O6: the bytes are a header and a body, a command is read only from a legal header and its operands, and
that header is the command's own by `buildInstr_of_select`. -/
theorem decodedCommandHasOneFrame : Obligations.DecodedCommandHasOneFrame := by
  intro bytes rest i hdec
  by_cases hshort : bytes.length < 8
  · rw [decode_short hshort] at hdec
    cases hdec
  obtain ⟨H, body, rfl⟩ := exists_header hshort
  rw [decode_header_append] at hdec
  obtain ⟨op, param, data, hsel, hplen, hdlen, rfl, rfl⟩ := decodeBody_eq_command hdec
  obtain ⟨hheader, hp, hd⟩ := buildInstr_of_select hsel hplen hdlen
  constructor
  · rw [Instr.wf_iff, hp, hd, hplen, hdlen]
    exact ⟨BitVec.isLt _, BitVec.isLt _⟩
  · rw [encode, hp, hd, hheader, Header.toBits_ofBits, List.append_assoc, List.append_assoc]
    rfl

end Sys2Proof
end

section
/-! PROOFS. The generator as an integer machine: CounterUpdate is one 256-bit addition (R104), and a Step is one step
of the integers (R111, R112). -/

namespace Sys2Proof.Machine

/-! ### Eight words as one number (R104) -/

/-- The words are the digits of the wide number in base 2^32. -/
theorem wide_eq_digits (w : Words) :
    Reference.wide w = (finFunctionFinEquiv fun j : Fin 8 => w[j].toFin).val := by
  rw [finFunctionFinEquiv_apply, Reference.wide]
  simp only [pow_mul]
  rfl

theorem wide_lt (w : Words) : Reference.wide w < 2 ^ 256 := by
  rw [wide_eq_digits]
  exact Fin.isLt _

theorem wide_digit (w : Words) (j : Fin 8) : Reference.wide w / 2 ^ (32 * j.val) % 2 ^ 32 = w[j].toNat := by
  have h := congrArg Fin.val (congrFun (finFunctionFinEquiv.symm_apply_apply fun j : Fin 8 => w[j].toFin) j)
  rwa [finFunctionFinEquiv_symm_apply_val, ← wide_eq_digits, ← pow_mul] at h

/-! ### The wide addition -/

/-- One word of the counter and its carry hold the sum of that word whole (R102). -/
theorem counterWord_add_carry (A C : Words) (b : Carry) (j : Fin 8) :
    ((counterWords A C b)[j]).toNat + 2 ^ 32 * (carryInto A C b (j.val + 1)).toNat =
      C[j].toNat + A[j].toNat + (carryInto A C b j.val).toNat := by
  rw [counterWords_getElem_toNat, carryInto_succ_toNat, Nat.mod_add_div]

/-- What the carry into word `n` counts in the wide number. -/
def carryWeight (A C : Words) (b : Carry) (n : Nat) : Nat := (carryInto A C b n).toNat * 2 ^ (32 * n)

theorem wide_counterWords_add_carryWeights (A C : Words) (b : Carry) :
    Reference.wide (counterWords A C b) + ∑ j : Fin 8, carryWeight A C b (j.val + 1) =
      Reference.wide C + Reference.wide A + ∑ j : Fin 8, carryWeight A C b j.val := by
  simp only [Reference.wide, ← Finset.sum_add_distrib]
  refine Finset.sum_congr rfl fun j _ => ?_
  rw [carryWeight, carryWeight, Nat.mul_succ, pow_add]
  linear_combination 2 ^ (32 * j.val) * counterWord_add_carry A C b j

/-- The carries between the words cancel; the old b and the carry out of word 7 are left. -/
theorem wide_counterWords (A C : Words) (b : Carry) :
    Reference.wide (counterWords A C b) + (carryInto A C b 8).toNat * 2 ^ 256 =
      Reference.wide C + Reference.wide A + b.toNat := by
  have htelescope : ∑ j : Fin 8, carryWeight A C b (j.val + 1) + carryWeight A C b 0 =
      ∑ j : Fin 8, carryWeight A C b j.val + carryWeight A C b 8 := by
    rw [Fin.sum_univ_eq_sum_range (carryWeight A C b), Fin.sum_univ_eq_sum_range fun n => carryWeight A C b (n + 1),
      ← Finset.sum_range_succ, ← Finset.sum_range_succ']
  have hwords := wide_counterWords_add_carryWeights A C b
  have hin : carryWeight A C b 0 = b.toNat := Nat.mul_one _
  have hout : carryWeight A C b 8 = (carryInto A C b 8).toNat * 2 ^ 256 := rfl
  omega

/-- Settles O15: the new counter is below 2^256, so it is the sum's remainder and the new b is its quotient. -/
theorem counterUpdateIsOneWideAddition : Obligations.CounterUpdateIsOneWideAddition := by
  intro cfg r T
  have hsum : _ = T := wide_counterWords cfg.A r.C r.b
  have hlt := wide_lt (counterWords cfg.A r.C r.b)
  rw [counterUpdate_C, counterUpdate_b, ← hsum, Nat.add_mul_mod_self_right, Nat.mod_eq_of_lt hlt,
    Nat.add_mul_div_right _ _ (by decide), Nat.div_eq_of_lt hlt, Nat.zero_add]
  exact ⟨rfl, rfl⟩

/-! ### Steps of the two machines -/

/-- One Step is one step of the integers: the counter by the wide addition, X by the closed form of R111 over the words
of the new counter. -/
theorem ofGenerator_genStep (cfg : Config) (r : Generator) :
    Reference.ofGenerator (genStep cfg r) = Reference.next (Reference.wide cfg.A) (Reference.ofGenerator r) := by
  obtain ⟨hC, hb⟩ := counterUpdateIsOneWideAddition cfg r
  have hG (j : Fin 8) : ((gWords r.X (counterUpdate cfg r).C)[j]).toNat =
      Reference.g r.X[j].toNat
        ((Reference.wide r.C + Reference.wide cfg.A + r.b.toNat) % 2 ^ 256 / 2 ^ (32 * j.val) % 2 ^ 32) := by
    rw [gWords_getElem_toNat, ← hC, wide_digit]
  rw [genStep, Reference.ofGenerator, nextState_C, nextState_b, hC, hb, nextState_X, counterUpdate_X]
  simp only [mixWords_getElem_toNat, hG]
  rfl

/-- Settles O19, by induction on the number of Steps. -/
theorem generatorRefinesIntegers : Obligations.GeneratorRefinesIntegers := by
  intro cfg n r
  induction n generalizing r with
  | zero => rfl
  | succ n ih => rw [genSteps_succ, ih, ofGenerator_genStep, Function.iterate_succ_apply]

end Sys2Proof.Machine
end

section
/-! PROOFS. What a command reads and writes: X, C, b and the master snapshot decide its result and the X, C, b it
leaves, S never does (R30, R124), and only KEYINIT writes the snapshot (R40). -/

namespace Sys2Proof.Machine

open Sys2Proof.Safety

/-! ### What Crypt and the IV read -/

/-- From the start of a buffer the result bytes and the X, C, b left depend on X, C, b alone (R124). -/
theorem crypt_same (cfg : Config) (data : List Byte) {r q : Generator} (h : SameWorking r q) :
    (crypt cfg data r).1 = (crypt cfg data q).1 ∧ SameWorking (crypt cfg data r).2 (crypt cfg data q).2 := by
  by_cases hd : data = []
  · subst hd
    exact ⟨rfl, h⟩
  · rw [crypt_congr cfg hd h]
    exact ⟨rfl, rfl, rfl, rfl⟩

theorem applyIv_same (cfg : Config) (iv : Option (List Byte)) {s t : State} (hg : SameGenerator s t)
    (hm : SameMaster s t) : SameGenerator (applyIv cfg iv s) (applyIv cfg iv t) := by
  cases iv with
  | none => exact hg
  | some bytes => exact ivSchedule_same cfg bytes hm

/-! ### KEYINIT reads the key alone (R91) -/

theorem keySchedule_same (cfg : Config) (key : List Byte) (s t : State) :
    SameGenerator (keySchedule cfg key s) (keySchedule cfg key t) ∧
      SameMaster (keySchedule cfg key s) (keySchedule cfg key t) := by
  rw [SameGenerator, keySchedule_gen, keySchedule_gen, SameMaster]
  simp only [keySchedule_MX, keySchedule_MC, keySchedule_Mb]
  exact ⟨keyedGenerator_same cfg key s.gen t.gen, keyedGenerator_same cfg key s.gen t.gen⟩

/-- Settles O23: the key schedule is the same from both states, and phase becomes K. -/
theorem keyinitForgetsOldState : Obligations.KeyinitForgetsOldState := by
  intro key s t hkey
  obtain ⟨hgen, hmaster⟩ := keySchedule_same engineConfig key s t
  exact ⟨_, _, exec_keyinit hkey s, exec_keyinit hkey t, hgen, hmaster, rfl, rfl⟩

/-! ### Only KEYINIT writes the snapshot (R40) -/

theorem effectOf_sameMaster {i : Instr} (hi : i.opcode ≠ .keyinit) (s : State) : SameMaster (effectOf i s) s := by
  cases i with
  | keyinit key => exact absurd rfl hi
  | ivinit iv => exact ⟨applyIv_MX _ iv s, applyIv_MC _ iv s, applyIv_Mb _ iv s⟩
  | encmsg iv data => exact ⟨applyIv_MX _ iv s, applyIv_MC _ iv s, applyIv_Mb _ iv s⟩
  | decmsg iv data => exact ⟨applyIv_MX _ iv s, applyIv_MC _ iv s, applyIv_Mb _ iv s⟩
  | _ => exact ⟨rfl, rfl, rfl⟩

/-- Settles O41: an error writes no register, and the effect of the other commands keeps the snapshot. -/
theorem masterWrittenOnlyByKeyinit : Obligations.MasterWrittenOnlyByKeyinit := by
  intro i s t hi h
  rcases exec_cases h with ⟨e, -, rfl⟩ | ⟨-, rfl⟩
  · exact ⟨rfl, rfl, rfl⟩
  · exact effectOf_sameMaster hi s

/-! ### What a command reads -/

theorem sameMaster_congr {s s' t t' : State} (h : SameMaster s t) (hs : SameMaster s' s) (ht : SameMaster t' t) :
    SameMaster s' t' := by
  obtain ⟨hX, hC, hb⟩ := h
  obtain ⟨sX, sC, sb⟩ := hs
  obtain ⟨tX, tC, tb⟩ := ht
  exact ⟨sX.trans (hX.trans tX.symm), sC.trans (hC.trans tC.symm), sb.trans (hb.trans tb.symm)⟩

/-- In a keyed engine X, C, b, MX, MC, Mb decide the result and the new X, C, b of every command. -/
theorem effectOf_resultOf_same (i : Instr) {s t : State} (hg : SameGenerator s t) (hm : SameMaster s t) :
    resultOf i s = resultOf i t ∧ SameGenerator (effectOf i s) (effectOf i t) := by
  cases i with
  | keyinit key => exact ⟨rfl, (keySchedule_same engineConfig key s t).1⟩
  | ivinit iv => exact ⟨rfl, applyIv_same engineConfig iv hg hm⟩
  | extract =>
    have hex : extraction engineConfig s.gen = extraction engineConfig t.gen := extraction_congr _ hg
    rw [SameGenerator, resultOf, resultOf, effectOf, effectOf, State.setGen_gen, State.setGen_gen, hex]
    exact ⟨rfl, rfl, rfl, rfl⟩
  | encrypt data => exact crypt_same engineConfig data hg
  | decrypt data => exact crypt_same engineConfig data hg
  | encmsg iv data => exact crypt_same engineConfig data (applyIv_same engineConfig iv hg hm)
  | decmsg iv data => exact crypt_same engineConfig data (applyIv_same engineConfig iv hg hm)

end Sys2Proof.Machine
end

section
/-! PROOFS. What status, result length and next phase depend on: the opcode, the operand lengths and the phase (R139,
R173); the transitions of phase (R31, R32). -/

namespace Sys2Proof.Machine

/-! ### The error of a command (R137, R139) -/

/-- A present IV: the format has an IV operand and it is not `none` (R64). -/
def ivPresent (op : Opcode) (absent : Bool) : Bool := op.format.mayBeAbsent && !absent

/-- The first check that fails, from what the checks read. -/
def failedCheck (op : Opcode) (absent : Bool) (paramLength : Nat) (p : Phase) : Option Status :=
  if op = .keyinit then if paramLength = 16 then none else some .invalidKeyLength
  else if p = .U then some .notKeyInitialized
  else if ivPresent op absent = true ∧ paramLength ≠ 8 then some .invalidIVLength
  else none

/-- In the formats with an IV operand the length check is `ivLengthOk`. -/
theorem failedCheck_ivOperand {op : Opcode} (hop : op.format.mayBeAbsent = true) (iv : Option (List Byte)) (p : Phase) :
    failedCheck op iv.isNone (iv.getD []).length p =
      if p = .U then some .notKeyInitialized else if ivLengthOk iv then none else some .invalidIVLength := by
  have hkey : op ≠ .keyinit := by
    rintro rfl
    cases hop
  rw [failedCheck, if_neg hkey, ivPresent, hop]
  cases iv with
  | none => rfl
  | some bytes => simp [ivLengthOk_some]

theorem errorOf_eq_failedCheck (i : Instr) (p : Phase) :
    errorOf i p = failedCheck i.opcode i.ivAbsent i.paramBytes.length p := by
  cases i with
  | ivinit iv => exact (failedCheck_ivOperand rfl iv p).symm
  | encmsg iv data => exact (failedCheck_ivOperand rfl iv p).symm
  | decmsg iv data => exact (failedCheck_ivOperand rfl iv p).symm
  | _ => rfl

/-- Phases K and V pass and fail the same checks (R32). -/
theorem errorOf_congr_keyed (i : Instr) {p q : Phase} (hp : p ≠ .U) (hq : q ≠ .U) : errorOf i p = errorOf i q := by
  simp only [errorOf_eq_failedCheck, failedCheck, if_neg hp, if_neg hq]

/-- Every command that succeeds but KEYINIT found the engine keyed (R135). -/
theorem keyed_of_errorOf_eq_none {i : Instr} {p : Phase} (hi : i.opcode ≠ .keyinit) (h : errorOf i p = none) :
    p ≠ .U := by
  rintro rfl
  rw [errorOf_uninitialized hi] at h
  cases h

/-! ### The phase a command leaves (R31, R32) -/

/-- The phase after a command that succeeds. -/
def nextPhase (op : Opcode) (absent : Bool) (p : Phase) : Phase :=
  if op = .keyinit then .K else if ivPresent op absent = true then .V else p

theorem effectOf_phase (i : Instr) (s : State) :
    (effectOf i s).phase = nextPhase i.opcode i.ivAbsent s.phase := by
  cases i with
  | ivinit iv => cases iv <;> rfl
  | encmsg iv data => cases iv <;> rfl
  | decmsg iv data => cases iv <;> rfl
  | _ => rfl

/-- Settles O39: an error keeps phase; success leaves `nextPhase`, and only KEYINIT succeeds in phase U. -/
theorem phaseFollowsLifecycle : Obligations.PhaseFollowsLifecycle := by
  intro i s t r h hr
  rcases exec_response h hr with ⟨e, he, rfl, rfl⟩ | ⟨hnone, rfl, rfl⟩
  · exact ⟨fun _ => rfl, fun hok => absurd hok (errorOf_ne_ok he)⟩
  · refine ⟨fun hne => absurd rfl hne, fun _ => ?_⟩
    have hkeyed := fun hi => keyed_of_errorOf_eq_none (i := i) hi hnone
    have hphase := effectOf_phase i s
    cases i with
    | keyinit key => exact hphase
    | ivinit iv => cases iv <;> exact ⟨hkeyed nofun, hphase⟩
    | encmsg iv data => cases iv <;> exact ⟨hkeyed nofun, hphase⟩
    | decmsg iv data => cases iv <;> exact ⟨hkeyed nofun, hphase⟩
    | _ => exact ⟨hkeyed nofun, hphase⟩

/-! ### The result length (R61) -/

theorem resultOf_length (i : Instr) (s : State) :
    (resultOf i s).length = if i.opcode = .extract then 16 else i.dataBytes.length := by
  cases i with
  | extract => exact Vector.length_toList
  | encrypt data => exact crypt_length _ _ _
  | decrypt data => exact crypt_length _ _ _
  | encmsg iv data => exact crypt_length _ _ _
  | decmsg iv data => exact crypt_length _ _ _
  | _ => rfl

/-- Settles O42: `failedCheck`, `nextPhase` and `resultOf_length` read nothing but what the two commands share. -/
theorem statusDependsOnLengthsAndPhase : Obligations.StatusDependsOnLengthsAndPhase := by
  intro i j s t hop habsent hparam hdata hphase
  have herr : errorOf i s.phase = errorOf j t.phase := by
    rw [errorOf_eq_failedCheck, errorOf_eq_failedCheck, hop, habsent, hparam, hphase]
  cases he : errorOf i s.phase with
  | some e => exact ⟨_, _, _, _, exec_error he, exec_error (herr ▸ he), rfl, rfl, rfl, rfl, hphase⟩
  | none =>
    refine ⟨_, _, ⟨.ok, resultOf i s⟩, ⟨.ok, resultOf j t⟩, exec_ok he, exec_ok (herr ▸ he), ?_, ?_, rfl, ?_, ?_⟩
    · rw [State.respond_responses, effectOf_responses]
    · rw [State.respond_responses, effectOf_responses]
    · rw [resultOf_length, resultOf_length, hop, hdata]
    · rw [State.respond_phase, State.respond_phase, effectOf_phase, effectOf_phase, hop, habsent, hphase]

/-! ### Phases K and V are handled alike (R32) -/

section
variable (i : Instr) (s : State) (p q : Phase)

theorem resultOf_setPhase : resultOf i (s.setPhase p) = resultOf i s := by
  cases i with
  | ivinit iv => cases iv <;> rfl
  | encmsg iv data => cases iv <;> rfl
  | decmsg iv data => cases iv <;> rfl
  | _ => rfl

theorem effectOf_setPhase : (effectOf i (s.setPhase p)).setPhase q = (effectOf i s).setPhase q := by
  cases i with
  | ivinit iv => cases iv <;> rfl
  | encmsg iv data => cases iv <;> rfl
  | decmsg iv data => cases iv <;> rfl
  | _ => rfl

end

theorem State.respond_setPhase (s : State) (e : Status) (out : List Byte) (p : Phase) :
    (s.respond e out).setPhase p = (s.setPhase p).respond e out := rfl

/-- Settles O40: both phases pass the same checks, and neither the effect nor the result reads phase. -/
theorem phasesKAndVAlike : Obligations.PhasesKAndVAlike := by
  intro i s
  have hKV : errorOf i .K = errorOf i .V := errorOf_congr_keyed i (by decide) (by decide)
  cases he : errorOf i .K with
  | some e => exact ⟨_, _, exec_error he, exec_error (s := s.setPhase .V) (hKV ▸ he), rfl⟩
  | none =>
    refine ⟨_, _, exec_ok (s := s.setPhase .K) he, exec_ok (s := s.setPhase .V) (hKV ▸ he), ?_⟩
    show State.setPhase _ .U = State.setPhase _ .U
    rw [State.respond_setPhase, State.respond_setPhase, effectOf_setPhase, effectOf_setPhase, resultOf_setPhase,
      resultOf_setPhase]

end Sys2Proof.Machine
end

section
/-! PROOFS. Steps and the response channel: every step goes on (R147, R171), answers one response or none (R61), errors
are empty and change nothing (R138, R140), and reset alone leaves a frame without its response (R158). -/

namespace Sys2Proof.Machine

open Sys2Proof.Safety

theorem step_next (s : State) : ∃ t, step s = .next t := by
  rcases step_cases s with ⟨i, rest, -, -, hs⟩ | ⟨why, rest, -, -, hs⟩ | ⟨-, -, hs⟩ | ⟨e, later, -, -, hs⟩
  · rw [hs]
    exact exec_next i _
  · exact ⟨_, hs⟩
  · exact ⟨_, hs⟩
  · exact ⟨_, hs⟩

/-- Settles O11, by `step_next`: a step that runs a command goes on as `exec_next` does, the others name their state. -/
theorem everyStepGoesOn : Obligations.EveryStepGoesOn := step_next

/-- The next state of a step: a command's, a rejected frame's, the state itself, or the reset registers. -/
theorem step_inv {s t : State} (h : step s = .next t) :
    (∃ i rest, resetDue s.resets = false ∧ decode s.cmdIn = .command i rest ∧ exec i (s.takeFrame rest) = .next t) ∨
      (∃ why rest, resetDue s.resets = false ∧ decode s.cmdIn = .illegal why rest ∧
        t = (s.takeFrame rest).respond .illegalCommand []) ∨
      (decode s.cmdIn = .incomplete ∧ t = s) ∨
      (∃ e later, s.resets = e :: later ∧ (e.frames = 0 ∨ decode s.cmdIn = .incomplete) ∧
        t = s.resetRegisters.setInputs e.bytes later) := by
  rcases step_cases s with ⟨i, rest, hdue, hdec, hs⟩ | ⟨why, rest, hdue, hdec, hs⟩ | ⟨hdec, -, hs⟩ |
    ⟨e, later, hr, hwhy, hs⟩
  · exact .inl ⟨i, rest, hdue, hdec, hs.symm.trans h⟩
  · exact .inr (.inl ⟨why, rest, hdue, hdec, Host.Outcome.next.inj (h.symm.trans hs)⟩)
  · exact .inr (.inr (.inl ⟨hdec, Host.Outcome.next.inj (h.symm.trans hs)⟩))
  · exact .inr (.inr (.inr ⟨e, later, hr, hwhy, Host.Outcome.next.inj (h.symm.trans hs)⟩))

/-- A step answers no response, or exactly one, and then it took a whole frame that reset did not strike. -/
theorem step_responses {s t : State} (h : step s = .next t) :
    (t.responses = s.responses ∧ (decode s.cmdIn = .incomplete ∨ resetDue s.resets = true ∧ t.phase = .U)) ∨
      (resetDue s.resets = false ∧ ∃ r, t.responses = s.responses ++ [r]) := by
  rcases step_inv h with ⟨i, rest, hdue, -, ht⟩ | ⟨why, rest, hdue, -, rfl⟩ | ⟨hdec, rfl⟩ | ⟨e, later, hr, hwhy, rfl⟩
  · obtain ⟨-, -, -, r, hr⟩ := exec_channels ht
    exact .inr ⟨hdue, r, hr⟩
  · exact .inr ⟨hdue, _, rfl⟩
  · exact .inl ⟨rfl, .inl hdec⟩
  · rcases hwhy with hzero | hdec
    · exact .inl ⟨rfl, .inr ⟨by rw [hr]; exact (resetDue_cons e later).2 hzero, rfl⟩⟩
    · exact .inl ⟨rfl, .inl hdec⟩

/-- Settles O49: with a whole frame on the channel, a step without a response is a reset that was due. -/
theorem onlyResetStopsAFrame : Obligations.OnlyResetStopsAFrame := by
  intro s t hwhole h
  rcases step_responses h with ⟨hsame, hdec | ⟨hdue, hphase⟩⟩ | hone
  · exact absurd hdec hwhole
  · exact .inl ⟨hdue, hphase, hsame⟩
  · exact .inr hone

/-- Settles O46: the one new response is empty if it reports an error, by `step_error_out`. -/
theorem errorsCarryNothingKept : Obligations.ErrorsCarryNothingKept := by
  intro s t hs h r hr hne
  rcases step_responses h with ⟨hsame, -⟩ | ⟨-, q, hq⟩
  · exact hs r (hsame ▸ hr) hne
  · rw [hq, List.mem_append, List.mem_singleton] at hr
    rcases hr with hold | rfl
    · exact hs r hold hne
    · exact step_error_out h hq hne

/-! ### Errors change nothing (R140) -/

theorem exec_error_state {i : Instr} {s t : State} {r : Response} (h : exec i s = .next t)
    (hr : t.responses = s.responses ++ [r]) (hne : r.status ≠ .ok) : t = s.respond r.status [] := by
  rcases exec_response h hr with ⟨e, -, rfl, rfl⟩ | ⟨-, -, rfl⟩
  · rfl
  · exact absurd rfl hne

/-- Settles O38: a command's error by `exec_error_state`; of the steps only a command and an illegal frame answer. -/
theorem errorsChangeNothing : Obligations.ErrorsChangeNothing := by
  refine ⟨fun i s t r h hr hne => exec_error_state h hr hne, fun s t r h hr hne => ?_⟩
  rcases step_inv h with ⟨i, rest, -, hdec, ht⟩ | ⟨why, rest, -, hdec, rfl⟩ | ⟨-, rfl⟩ | ⟨e, later, -, -, rfl⟩
  · exact ⟨rest, .inl ⟨i, hdec⟩, exec_error_state ht hr hne⟩
  · rw [State.respond_responses, State.takeFrame_responses, List.append_cancel_left_eq, List.singleton_inj] at hr
    exact ⟨rest, .inr ⟨why, hdec⟩, by rw [← hr]; rfl⟩
  · simp at hr
  · simp at hr

end Sys2Proof.Machine
end

section
/-! PROOFS. Non-interference: equivalent engines stay equivalent in every step, so the host never sees S, what reset
left in the registers, or the free values (R30, R38, R157). -/

namespace Sys2Proof.Machine

open Sys2Proof.Safety

/-- A command that succeeds found an engine whose registers are a key's, or is KEYINIT, which reads none of them. -/
theorem effectOf_same_of_no_error {i : Instr} {s t : State}
    (hregs : s.phase ≠ .U → SameGenerator s t ∧ SameMaster s t) (he : errorOf i s.phase = none) :
    resultOf i s = resultOf i t ∧ SameGenerator (effectOf i s) (effectOf i t) ∧
      SameMaster (effectOf i s) (effectOf i t) := by
  by_cases hi : i.opcode = .keyinit
  · cases i with
    | keyinit key => exact ⟨rfl, keySchedule_same engineConfig key s t⟩
    | _ => cases hi
  · obtain ⟨hg, hm⟩ := hregs (keyed_of_errorOf_eq_none hi he)
    obtain ⟨hout, hgen⟩ := effectOf_resultOf_same i hg hm
    exact ⟨hout, hgen, sameMaster_congr hm (effectOf_sameMaster hi s) (effectOf_sameMaster hi t)⟩

/-- A command keeps two engines equivalent: it passes the same checks in both, and leaves the same registers. -/
theorem exec_hostEquivalent {i : Instr} {s t u v : State} (h : HostEquivalent s t) (hu : exec i s = .next u)
    (hv : exec i t = .next v) : HostEquivalent u v := by
  obtain ⟨hcmd, hresets, hresp, hphase, hregs⟩ := h
  have herr : errorOf i s.phase = errorOf i t.phase := by rw [hphase]
  cases he : errorOf i s.phase with
  | some e =>
    obtain rfl := Host.Outcome.next.inj ((exec_error he).symm.trans hu)
    obtain rfl := Host.Outcome.next.inj ((exec_error (herr ▸ he)).symm.trans hv)
    refine ⟨hcmd, hresets, ?_, hphase, hregs⟩
    rw [State.respond_responses, State.respond_responses, hresp]
  | none =>
    obtain rfl := Host.Outcome.next.inj ((exec_ok he).symm.trans hu)
    obtain rfl := Host.Outcome.next.inj ((exec_ok (herr ▸ he)).symm.trans hv)
    obtain ⟨hout, hgen, hmaster⟩ := effectOf_same_of_no_error hregs he
    refine ⟨?_, ?_, ?_, ?_, fun _ => ⟨hgen, hmaster⟩⟩
    · rw [State.respond_cmdIn, State.respond_cmdIn, effectOf_cmdIn, effectOf_cmdIn, hcmd]
    · rw [State.respond_resets, State.respond_resets, effectOf_resets, effectOf_resets, hresets]
    · rw [State.respond_responses, State.respond_responses, effectOf_responses, effectOf_responses, hresp, hout]
    · rw [State.respond_phase, State.respond_phase, effectOf_phase, effectOf_phase, hphase]

theorem takeFrame_hostEquivalent {s t : State} (h : HostEquivalent s t) (rest : List Byte) :
    HostEquivalent (s.takeFrame rest) (t.takeFrame rest) := by
  obtain ⟨-, hresets, hresp, hphase, hregs⟩ := h
  exact ⟨rfl, congrArg (countFrames 1) hresets, hresp, hphase, hregs⟩

/-- Settles O43: both engines take the same kind of step, since it is chosen by the channels alone; a command keeps the
relation by `exec_hostEquivalent`, and reset puts both in phase U, where no register counts. -/
theorem hostCannotSeeUnsetRegisters : Obligations.HostCannotSeeUnsetRegisters := by
  intro s t h
  have ⟨hcmd, hresets, hresp, hphase, hregs⟩ := h
  rcases step_cases s with ⟨i, rest, hdue, hdec, hs⟩ | ⟨why, rest, hdue, hdec, hs⟩ | ⟨hdec, hr, hs⟩ |
    ⟨e, later, hr, hwhy, hs⟩
  · obtain ⟨u, hu⟩ := exec_next i (s.takeFrame rest)
    obtain ⟨v, hv⟩ := exec_next i (t.takeFrame rest)
    have ht : step t = exec i (t.takeFrame rest) := step_command (hresets ▸ hdue) (hcmd ▸ hdec)
    exact ⟨u, v, hs.trans hu, ht.trans hv, exec_hostEquivalent (takeFrame_hostEquivalent h rest) hu hv⟩
  · obtain ⟨hcmd', hresets', hresp', hphase', hregs'⟩ := takeFrame_hostEquivalent h rest
    refine ⟨_, _, hs, step_illegal (hresets ▸ hdue) (hcmd ▸ hdec), hcmd', hresets', ?_, hphase', hregs'⟩
    rw [State.respond_responses, State.respond_responses, hresp']
  · exact ⟨s, t, hs, step_waits (hcmd ▸ hdec) (hresets ▸ hr), h⟩
  · have ht := step_reset (s := t) (hresets ▸ hr) (hcmd ▸ hwhy)
    exact ⟨_, _, hs, ht, rfl, rfl, hresp, rfl, fun hne => absurd rfl hne⟩

end Sys2Proof.Machine
end

section
/-! PROOFS. The lifecycle invariant (R35): outside phase U the engine holds a key's snapshot and stands on a keystream
of that key; KEYINIT and a present IV start a keystream, the data commands advance along it. -/

namespace Sys2Proof.Machine

open Sys2Proof.Safety

theorem sameWorking_trans {p q r : Generator} (h : SameWorking p q) (k : SameWorking q r) : SameWorking p r := by
  obtain ⟨hX, hC, hb⟩ := h
  obtain ⟨kX, kC, kb⟩ := k
  exact ⟨hX.trans kX, hC.trans kC, hb.trans kb⟩

theorem sameWorking_symm {q r : Generator} (h : SameWorking q r) : SameWorking r q := by
  obtain ⟨hX, hC, hb⟩ := h
  exact ⟨hX.symm, hC.symm, hb.symm⟩

theorem sameMaster_symm {s t : State} (h : SameMaster s t) : SameMaster t s := by
  obtain ⟨hX, hC, hb⟩ := h
  exact ⟨hX.symm, hC.symm, hb.symm⟩

/-! ### Advancing along a keystream -/

section
variable {cfg : Config} {s t : State} {n : Nat}

theorem genSteps_advance {r q p : Generator} {m : Nat} (hq : SameWorking q (genSteps cfg m p))
    (hr : SameWorking r (genSteps cfg n q)) : SameWorking r (genSteps cfg (m + n) p) := by
  rw [genSteps_add]
  exact sameWorking_trans hr (genSteps_same cfg n hq)

theorem onKeystream_advance (h : OnKeystream cfg s) (hgen : SameWorking t.gen (genSteps cfg n s.gen))
    (hmaster : SameMaster t s) (hphase : t.phase = s.phase) : OnKeystream cfg t := by
  have hback := sameMaster_symm hmaster
  unfold OnKeystream at h ⊢
  rw [hphase]
  split
  next => trivial
  next hK =>
    rw [hK] at h
    obtain ⟨m, hm⟩ := h
    have hat : SameWorking (atMaster s) (atMaster t) := hback
    exact ⟨m + n, sameWorking_trans (genSteps_advance hm hgen) (genSteps_same cfg (m + n) hat)⟩
  next hV =>
    rw [hV] at h
    obtain ⟨iv, m, hiv, hm⟩ := h
    have hat := ivSchedule_same cfg iv hback
    exact ⟨iv, m + n, hiv, sameWorking_trans (genSteps_advance hm hgen) (genSteps_same cfg (m + n) hat)⟩

/-- The invariant stands while the snapshot and phase stay and the working registers move on by Steps. -/
theorem lifecycle_advance (h : Lifecycle cfg s) (hgen : SameWorking t.gen (genSteps cfg n s.gen))
    (hmaster : SameMaster t s) (hphase : t.phase = s.phase) : Lifecycle cfg t := by
  intro hp
  obtain ⟨⟨key, before, hkey, hm⟩, hon⟩ := h (hphase ▸ hp)
  exact ⟨⟨key, before, hkey, sameMaster_congr hm hmaster ⟨rfl, rfl, rfl⟩⟩,
    onKeystream_advance hon hgen hmaster hphase⟩

end

section
variable {cfg : Config} {s : State} (h : Lifecycle cfg s)
include h

theorem lifecycle_respond (e : Status) (out : List Byte) : Lifecycle cfg (s.respond e out) :=
  lifecycle_advance (n := 0) h ⟨rfl, rfl, rfl⟩ ⟨rfl, rfl, rfl⟩ rfl

theorem lifecycle_takeFrame (rest : List Byte) : Lifecycle cfg (s.takeFrame rest) :=
  lifecycle_advance (n := 0) h ⟨rfl, rfl, rfl⟩ ⟨rfl, rfl, rfl⟩ rfl

theorem lifecycle_crypt (data : List Byte) : Lifecycle cfg (s.setGen (crypt cfg data s.gen).2) := by
  obtain ⟨n, hn⟩ := cryptFrom_steps cfg 0 data s.gen
  exact lifecycle_advance h hn ⟨rfl, rfl, rfl⟩ rfl

theorem lifecycle_extraction : Lifecycle cfg (s.setGen (extraction cfg s.gen)) :=
  lifecycle_advance (n := 1) h (extraction_sameWorking cfg s.gen) ⟨rfl, rfl, rfl⟩ rfl

/-- An 8-byte IV starts a keystream of the key whose snapshot the engine holds (R96 to R98). -/
theorem lifecycle_applyIv {iv : Option (List Byte)} (hp : s.phase ≠ .U) (hiv : ivLengthOk iv = true) :
    Lifecycle cfg (applyIv cfg iv s) := by
  cases iv with
  | none => exact h
  | some bytes =>
    obtain ⟨⟨key, before, hkey, hm⟩, -⟩ := h hp
    have hmaster : SameMaster (ivSchedule cfg bytes s) s := ⟨rfl, rfl, rfl⟩
    have hself : SameGenerator (ivSchedule cfg bytes s) (ivSchedule cfg bytes (ivSchedule cfg bytes s)) :=
      ivSchedule_same cfg bytes (sameMaster_symm hmaster)
    exact fun _ => ⟨⟨key, before, hkey, sameMaster_congr hm hmaster ⟨rfl, rfl, rfl⟩⟩,
      bytes, 0, (ivLengthOk_some bytes).1 hiv, hself⟩

end

/-- KEYINIT leaves the working registers at the snapshot it writes (R90). -/
theorem keySchedule_atMaster (cfg : Config) (key : List Byte) (s : State) :
    SameWorking (keySchedule cfg key s).gen (atMaster (keySchedule cfg key s)) := by
  rw [keySchedule_gen]
  simp only [SameWorking, atMaster, keySchedule_MX, keySchedule_MC, keySchedule_Mb, and_self]

theorem lifecycle_keySchedule (cfg : Config) {key : List Byte} (hkey : key.length = 16) (s : State) :
    Lifecycle cfg (keySchedule cfg key s) :=
  fun _ => ⟨⟨key, s, hkey, rfl, rfl, rfl⟩, 0, keySchedule_atMaster cfg key s⟩

/-! ### Commands and steps -/

theorem ivCommand_of_errorOf_eq_none {iv : Option (List Byte)} {data : List Byte} {i : Instr} {p : Phase}
    (hi : i = .ivinit iv ∨ i = .encmsg iv data ∨ i = .decmsg iv data) (he : errorOf i p = none) :
    p ≠ .U ∧ ivLengthOk iv = true := by
  rw [errorOf_ivCommand hi] at he
  split_ifs at he with hp hiv
  exact ⟨hp, hiv⟩

theorem effectOf_lifecycle {i : Instr} {s : State} (h : Lifecycle engineConfig s) (he : errorOf i s.phase = none) :
    Lifecycle engineConfig (effectOf i s) := by
  cases i with
  | keyinit key =>
    by_cases hkey : key.length = 16
    · exact lifecycle_keySchedule engineConfig hkey s
    · rw [errorOf, if_neg hkey] at he
      cases he
  | ivinit iv =>
    obtain ⟨hp, hiv⟩ := ivCommand_of_errorOf_eq_none (data := []) (.inl rfl) he
    exact lifecycle_applyIv h hp hiv
  | extract => exact lifecycle_extraction h
  | encrypt data => exact lifecycle_crypt h data
  | decrypt data => exact lifecycle_crypt h data
  | encmsg iv data =>
    obtain ⟨hp, hiv⟩ := ivCommand_of_errorOf_eq_none (.inr (.inl rfl)) he
    exact lifecycle_crypt (lifecycle_applyIv h hp hiv) data
  | decmsg iv data =>
    obtain ⟨hp, hiv⟩ := ivCommand_of_errorOf_eq_none (.inr (.inr rfl)) he
    exact lifecycle_crypt (lifecycle_applyIv h hp hiv) data

theorem exec_lifecycle {i : Instr} {s t : State} (h : Lifecycle engineConfig s) (ht : exec i s = .next t) :
    Lifecycle engineConfig t := by
  rcases exec_cases ht with ⟨e, -, rfl⟩ | ⟨he, rfl⟩
  · exact lifecycle_respond h e []
  · exact lifecycle_respond (effectOf_lifecycle h he) _ _

theorem lifecycle_uninitialized {cfg : Config} {s : State} (hp : s.phase = .U) : Lifecycle cfg s :=
  fun hne => absurd hp hne

/-- Settles O45: the reset state is in phase U. -/
theorem lifecycleAtReset : Obligations.LifecycleAtReset := lifecycle_uninitialized rfl

/-- Settles O44: a command keeps the invariant by `exec_lifecycle`, a rejected frame and waiting change no register, and
a reset ends in phase U. -/
theorem lifecycleKeptByStep : Obligations.LifecycleKeptByStep := by
  intro s t h ht
  rcases step_inv ht with ⟨i, rest, -, -, hexec⟩ | ⟨why, rest, -, -, rfl⟩ | ⟨-, rfl⟩ | ⟨e, later, -, -, rfl⟩
  · exact exec_lifecycle (lifecycle_takeFrame h rest) hexec
  · exact lifecycle_respond (lifecycle_takeFrame h rest) _ _
  · exact h
  · exact lifecycle_uninitialized rfl

end Sys2Proof.Machine
end

section
/-! PROOFS. The message forms (R128 to R131), repetition (R53, R166), the round trips, and what the keystream does not
depend on: the data (R126) and the cut into buffers at multiples of 16 (R125). -/

namespace Sys2Proof.Machine

open Sys2Proof.Safety

/-! ### IVINIT and the message forms on a keyed engine (R93, R128, R129) -/

theorem ivLengthOk_of_forall {iv : Option (List Byte)} (h : ∀ bytes, iv = some bytes → bytes.length = 8) :
    ivLengthOk iv = true := by
  cases iv with
  | none => rfl
  | some bytes => exact (ivLengthOk_some bytes).2 (h bytes rfl)

theorem errorOf_ivCommand_keyed {iv : Option (List Byte)} {data : List Byte} {i : Instr} {p : Phase}
    (hi : i = .ivinit iv ∨ i = .encmsg iv data ∨ i = .decmsg iv data) (hp : p ≠ .U) (hiv : ivLengthOk iv = true) :
    errorOf i p = none := by
  rw [errorOf_ivCommand hi, if_neg hp, if_pos hiv]

theorem exec_ivinit {iv : Option (List Byte)} {s : State} (hp : s.phase ≠ .U) (hiv : ivLengthOk iv = true) :
    exec (.ivinit iv) s = .next ((applyIv engineConfig iv s).respond .ok []) :=
  exec_ok (errorOf_ivCommand_keyed (data := []) (.inl rfl) hp hiv)

/-- The generator a message command transforms with: after the IV is applied. -/
def messageStart (iv : Option (List Byte)) (s : State) : Generator := (applyIv engineConfig iv s).gen

theorem exec_messageCommand {iv : Option (List Byte)} {data : List Byte} {i : Instr} {s : State} (hp : s.phase ≠ .U)
    (hiv : ivLengthOk iv = true) (hi : i = .encmsg iv data ∨ i = .decmsg iv data) :
    exec i s =
      .next (((applyIv engineConfig iv s).setGen (crypt engineConfig data (messageStart iv s)).2).respond .ok
        (crypt engineConfig data (messageStart iv s)).1) := by
  obtain rfl | rfl := hi
  · exact exec_ok (errorOf_ivCommand_keyed (.inr (.inl rfl)) hp hiv)
  · exact exec_ok (errorOf_ivCommand_keyed (.inr (.inr rfl)) hp hiv)

theorem applyIv_keyed (cfg : Config) (iv : Option (List Byte)) {s : State} (hp : s.phase ≠ .U) :
    (applyIv cfg iv s).phase ≠ .U := by
  cases iv with
  | none => exact hp
  | some bytes =>
    rw [applyIv_some, ivSchedule_phase]
    decide

/-- Settles O31: both runs transform with the generator that the applied IV leaves; the response of IVINIT is the only
difference. -/
theorem messageFormsAreIvinitThenEncrypt : Obligations.MessageFormsAreIvinitThenEncrypt := by
  intro iv data i s hp hbytes hi
  have hiv := ivLengthOk_of_forall hbytes
  refine ⟨_, _, _, exec_ivinit hp hiv, exec_bufferCommand ?_ (.inl rfl), rfl, ?_⟩
  · exact applyIv_keyed engineConfig iv hp
  · rw [exec_messageCommand hp hiv hi, State.respond, State.setGen_responses, applyIv_responses]
    rfl

/-! ### Round trips (R131) -/

/-- Crypt over the result of a Crypt gives the data back, wherever X, C, b are the same; S does not matter. -/
theorem crypt_round_trip (cfg : Config) (data : List Byte) {r q : Generator} (h : SameWorking r q) :
    (crypt cfg (crypt cfg data r).1 q).1 = data := by
  rw [(crypt_same cfg data h).1]
  exact cryptFrom_involutive cfg 0 data q

/-- Settles O33: `crypt_round_trip` from the generators of the two engines. -/
theorem bufferRoundTripAtSamePosition : Obligations.BufferRoundTripAtSamePosition := by
  intro m s t hs ht hsame
  refine ⟨_, _, _, exec_bufferCommand hs (.inl rfl), rfl, exec_bufferCommand ht (.inr rfl), ?_⟩
  rw [State.respond_responses, State.setGen_responses, crypt_round_trip engineConfig m hsame]

/-- A present IV starts from the snapshot, which no message command writes, so every call starts at the same X, C, b
(R128). -/
theorem messageStart_same (iv : List Byte) {s t : State} (h : SameMaster s t) :
    SameWorking (messageStart (some iv) s) (messageStart (some iv) t) := ivSchedule_same engineConfig iv h

/-- What a message command answers, and what the next one needs of the state it leaves. -/
theorem exec_messageCommand_answer {iv : Option (List Byte)} {data : List Byte} {i : Instr} {s : State}
    (hp : s.phase ≠ .U) (hiv : ivLengthOk iv = true) (hi : i = .encmsg iv data ∨ i = .decmsg iv data) :
    ∃ t, exec i s = .next t ∧
      t.responses = s.responses ++ [⟨.ok, (crypt engineConfig data (messageStart iv s)).1⟩] ∧
      t.phase ≠ .U ∧ SameMaster s t := by
  refine ⟨_, exec_messageCommand hp hiv hi, ?_, applyIv_keyed engineConfig iv hp, ?_⟩
  · rw [State.respond_responses, State.setGen_responses, applyIv_responses]
  · exact ⟨(applyIv_MX _ iv s).symm, (applyIv_MC _ iv s).symm, (applyIv_Mb _ iv s).symm⟩

/-- Settles O32: DECMSG starts where ENCMSG did, by `messageStart_same`, and `crypt_round_trip` gives the message. -/
theorem messageRoundTrip : Obligations.MessageRoundTrip := by
  intro iv m s hp hlen
  have hiv := (ivLengthOk_some iv).2 hlen
  obtain ⟨t, ht, htr, htp, hmaster⟩ := exec_messageCommand_answer (data := m) hp hiv (.inl rfl)
  obtain ⟨u, hu, hur, -, -⟩ := exec_messageCommand_answer (i := .decmsg (some iv) _) htp hiv (.inr rfl)
  rw [crypt_round_trip engineConfig m (messageStart_same iv hmaster)] at hur
  exact ⟨t, _, u, ht, htr, hu, hur⟩

/-! ### Repetition (R53, R166) -/

/-- The data commands that go on in the keystream. -/
theorem exec_continuing {data : List Byte} {i : Instr} {s : State} (hp : s.phase ≠ .U)
    (hi : i = .encrypt data ∨ i = .decrypt data ∨ i = .encmsg none data ∨ i = .decmsg none data) :
    exec i s =
      .next ((s.setGen (crypt engineConfig data s.gen).2).respond .ok (crypt engineConfig data s.gen).1) := by
  obtain hi | hi | hi | hi := hi
  · exact exec_bufferCommand hp (.inl hi)
  · exact exec_bufferCommand hp (.inr hi)
  · exact exec_messageCommand hp ivLengthOk_none (.inl hi)
  · exact exec_messageCommand hp ivLengthOk_none (.inr hi)

/-- Settles O50: a continuing form starts where the first command left the generator, ceil(len/16) Extractions on; with
a present IV both commands start at the same X, C, b. -/
theorem repetitionGoesOnUnlessIvPresent : Obligations.RepetitionGoesOnUnlessIvPresent := by
  constructor
  · intro data i s hp hi
    refine ⟨_, _, _, _, exec_continuing hp hi, rfl, exec_continuing hp hi, rfl, crypt_length _ _ _, fun n hn => ?_⟩
    rw [crypt_getD _ _ hn, State.respond_gen, State.setGen_gen, crypt_gen, ← Function.iterate_add_apply, Nat.add_comm,
      Nat.add_assoc]
  · intro iv data i s hp hlen hi
    have hiv := (ivLengthOk_some iv).2 hlen
    obtain ⟨t, ht, htr, htp, hmaster⟩ := exec_messageCommand_answer hp hiv hi
    obtain ⟨u, hu, hur, -, -⟩ := exec_messageCommand_answer htp hiv hi
    rw [← (crypt_same engineConfig data (messageStart_same iv hmaster)).1] at hur
    exact ⟨t, u, _, ht, htr, hu, hur⟩

/-! ### The keystream and the data (R126) -/

theorem xor_same_byte_cancel (a c k : Byte) : a ^^^ k ^^^ (c ^^^ k) = a ^^^ c := by
  rw [BitVec.xor_comm c k, BitVec.xor_assoc, ← BitVec.xor_assoc k k c, BitVec.xor_self, BitVec.zero_xor]

/-- Settles O34: the generator left depends on the length, and the keystream byte cancels out of the exclusive-or of
the two results. -/
theorem keystreamIgnoresData : Obligations.KeystreamIgnoresData := by
  intro d e s hp hlen
  refine ⟨_, _, _, _, exec_bufferCommand hp (.inl rfl), exec_bufferCommand hp (.inl rfl), rfl, rfl, ?_, fun n hn => ?_⟩
  · rw [crypt_gen, crypt_gen, hlen]
    rfl
  · rw [crypt_getD _ _ hn, crypt_getD _ _ (hlen ▸ hn), xor_same_byte_cancel]

/-! ### Splitting a buffer (R125) -/

/-- Behind a multiple of 16 bytes the index starts a block again, as a new command's does. -/
theorem crypt_append (cfg : Config) {d : List Byte} (hd : d.length % 16 = 0) (e : List Byte) (r : Generator) :
    crypt cfg (d ++ e) r =
      ((crypt cfg d r).1 ++ (crypt cfg e (crypt cfg d r).2).1, (crypt cfg e (crypt cfg d r).2).2) := by
  have hindex : (0 + d.length) % 16 = 0 % 16 := by omega
  rw [crypt, cryptFrom_append, cryptFrom_mod cfg hindex]
  rfl

/-- Settles O35, by `crypt_append`. -/
theorem splitAtSixteenChangesNothing : Obligations.SplitAtSixteenChangesNothing := by
  intro d e s hp hd
  have hwhole := exec_bufferCommand (data := d ++ e) hp (.inl rfl)
  rw [crypt_append engineConfig hd] at hwhole
  generalize hc : crypt engineConfig d s.gen = c at hwhole
  have hfirst := exec_bufferCommand (data := d) hp (.inl rfl)
  rw [hc] at hfirst
  have hkeyed : ((s.setGen c.2).respond .ok c.1).phase ≠ .U := hp
  refine ⟨_, _, _, c.1, _, hwhole, hfirst, exec_bufferCommand hkeyed (.inl rfl), rfl, ?_, rfl⟩
  rw [State.respond_responses, State.setGen_responses, State.respond_responses, State.setGen_responses,
    List.append_assoc]
  rfl

end Sys2Proof.Machine
end

section
/-! PROOFS. The schedules: KEYINIT written out (R85 to R90), IVINIT after it (R100), and the all-zero IV as four
EXTRACTs (R99). -/

namespace Sys2Proof.Machine

open Sys2Proof.Safety

/-! ### KEYINIT (R85 to R90) -/

/-- The little-endian value of two bytes; a byte past the end counts as 0 (R15). -/
theorem leNat_take_two (bytes : List Byte) :
    leNat (bytes.take 2) = (bytes.getD 0 0).toNat + 2 ^ 8 * (bytes.getD 1 0).toNat := by
  match bytes with
  | [] => rfl
  | [_] => rfl
  | _ :: _ :: _ => rfl

theorem memRead_two (bytes : List Byte) (i : Nat) :
    memRead bytes i 2 = (bytes.getD i 0).toNat + 2 ^ 8 * (bytes.getD (i + 1) 0).toNat := by
  rw [memRead, leNat_take_two]
  simp only [List.getD_eq_getElem?_getD, List.getElem?_drop, Nat.add_zero]

theorem subkeys_toNat (key : List Byte) (i : Fin 8) :
    ((subkeys key)[i]).toNat = (key.getD (2 * i.val) 0).toNat + 2 ^ 8 * (key.getD (2 * i.val + 1) 0).toNat := by
  have hlow := (key.getD (2 * i.val) 0).isLt
  have hhigh := (key.getD (2 * i.val + 1) 0).isLt
  have hfits : (key.getD (2 * i.val) 0).toNat + 2 ^ 8 * (key.getD (2 * i.val + 1) 0).toNat < 2 ^ 16 := by omega
  rw [Fin.getElem_fin, subkeys, Vector.getElem_ofFn, BitVec.toNat_ofNat, memRead_two]
  exact Nat.mod_eq_of_lt hfits

theorem keySchedule_eq (cfg : Config) (key : List Byte) (s : State) :
    keySchedule cfg key s =
      { s with
        X := (genSteps cfg 4 (keyLoad key s.gen)).X
        C := (counterRemix (genSteps cfg 4 (keyLoad key s.gen))).C
        b := (genSteps cfg 4 (keyLoad key s.gen)).b
        MX := (genSteps cfg 4 (keyLoad key s.gen)).X
        MC := (counterRemix (genSteps cfg 4 (keyLoad key s.gen))).C
        Mb := (genSteps cfg 4 (keyLoad key s.gen)).b
        phase := .K } := by
  have hS : (counterRemix (genSteps cfg 4 (keyLoad key s.gen))).S = s.S := genSteps_S cfg 4 (keyLoad key s.gen)
  rw [keySchedule, keyedGenerator, warmUp_eq, State.setGen_of_keeps_S hS]
  generalize genSteps cfg 4 (keyLoad key s.gen) = w
  rfl

theorem counterRemix_C (r : Generator) :
    (counterRemix r).C =
      #v[r.C[0] ^^^ r.X[4], r.C[1] ^^^ r.X[5], r.C[2] ^^^ r.X[6], r.C[3] ^^^ r.X[7],
         r.C[4] ^^^ r.X[0], r.C[5] ^^^ r.X[1], r.C[6] ^^^ r.X[2], r.C[7] ^^^ r.X[3]] :=
  words_ofFn _

/-- Settles O21: the subkeys are `subkeys_toNat`, the load table is `keyLoad` written out at its eight indices, and the
rest is `keySchedule_eq`. -/
theorem keyinitComputesMasterState : Obligations.KeyinitComputesMasterState := by
  intro key s hkey
  refine ⟨fun i => (subkeys key)[i], subkeys_toNat key, ?_⟩
  intro l w C
  have hl : keyLoad key s.gen = l := by
    rw [keyLoad, words_ofFn, words_ofFn]
    rfl
  rw [exec_keyinit hkey, keySchedule_eq, hl, counterRemix_C, State.respond]

/-! ### IVINIT on keyed engines (R100) -/

/-- Settles O27: the IV schedule reads the snapshot and the IV alone, and writes no snapshot. -/
theorem masterIsolation : Obligations.MasterIsolation := by
  intro iv s t hs ht hmaster hiv
  exact ⟨_, _, exec_ivinit_some hs hiv, exec_ivinit_some ht hiv, ivSchedule_same engineConfig iv hmaster,
    ⟨rfl, rfl, rfl⟩, ⟨rfl, rfl, rfl⟩, rfl, rfl⟩

/-! ### Commands in a row (R56) -/

theorem perform_cons {i : Instr} {s t : State} (h : exec i s = .next t) (is : List Instr) :
    Reference.perform (i :: is) s = Reference.perform is t := by
  simp only [Reference.perform, h]

/-- EXTRACTs in a row advance X, C, b by as many Steps (R117). -/
theorem perform_extracts (n : Nat) {s : State} (hp : s.phase ≠ .U) :
    ∃ t, Reference.perform (List.replicate n .extract) s = .next t ∧
      SameWorking t.gen (genSteps engineConfig n s.gen) := by
  induction n generalizing s with
  | zero => exact ⟨s, rfl, rfl, rfl, rfl⟩
  | succ n ih =>
    obtain ⟨t, ht, hgen⟩ := @ih ((s.setGen (extraction engineConfig s.gen)).respond .ok _) hp
    refine ⟨t, (perform_cons (exec_extract hp) _).trans ht, ?_⟩
    rw [genSteps_succ]
    exact sameWorking_trans hgen (genSteps_same engineConfig n (extraction_sameWorking engineConfig s.gen))

/-! ### The all-zero IV (R99) -/

theorem byteAt_zeros (n : Nat) (i : Fin 8) : byteAt (List.replicate n 0) i = 0 := by
  rw [byteAt, List.getD_eq_getElem?_getD, List.getElem?_replicate]
  split <;> rfl

theorem ivWord_zeros (m : IvBytes) (n : Nat) : ivWord m (List.replicate n 0) = 0 := by
  simp only [ivWord, byteAt_zeros]
  rfl

/-- The all-zero IV leaves the master counter as it is, whatever the IV map. -/
theorem newCounters_zeros (cfg : Config) (MC : Words) (n : Nat) : newCounters cfg MC (List.replicate n 0) = MC := by
  ext j hj : 1
  rw [newCounters_eq, Vector.getElem_ofFn, ivWord_zeros]
  exact BitVec.xor_zero

/-- So the warm-up of IVINIT starts from the snapshot, where KEYINIT left the generator. -/
theorem ivSchedule_zeros (cfg : Config) (n : Nat) (s : State) :
    SameWorking (ivSchedule cfg (List.replicate n 0) s).gen (genSteps cfg 4 (atMaster s)) := by
  rw [ivSchedule_gen, warmUp_eq]
  exact genSteps_same cfg 4 ⟨rfl, newCounters_zeros cfg s.MC n, rfl⟩

/-- Settles O28: both runs are four Steps from the state KEYINIT leaves, one as a warm-up from the snapshot, the other
as EXTRACTs. -/
theorem zeroIvEqualsFourExtracts : Obligations.ZeroIvEqualsFourExtracts := by
  intro key s hkey
  have hkeyinit := exec_keyinit hkey s
  have hp : (keySchedule engineConfig key s).phase ≠ .U := by
    rw [keySchedule_phase]
    decide
  have hat := keySchedule_atMaster engineConfig key s
  generalize keySchedule engineConfig key s = k at hkeyinit hp hat
  have hivinit := exec_ivinit_some (iv := List.replicate 8 0) (s := k.respond .ok []) hp rfl
  obtain ⟨e, he, hextracts⟩ := perform_extracts 4 (s := k.respond .ok []) hp
  refine ⟨_, e, (perform_cons hkeyinit _).trans (perform_cons hivinit []), (perform_cons hkeyinit _).trans he, ?_⟩
  have hwarm := ivSchedule_zeros engineConfig 8 (k.respond .ok [])
  have hsteps := genSteps_same engineConfig 4 (sameWorking_symm hat)
  exact sameWorking_trans hwarm (sameWorking_trans hsteps (sameWorking_symm hextracts))

end Sys2Proof.Machine
end

section
/-! PROOFS. Illegal headers (R67): the clauses of the spec are the headers that select no opcode. -/

namespace Sys2Proof

/-- The clauses of R67, as the spec lists them. -/
def Header.Illegal (h : Header) : Prop :=
  let op := h.OP.toNat
  (op = 0 ∨ 8 ≤ op) ∨ h.RSV0 ≠ 0 ∨ h.RSV1 ≠ 0 ∨
    (h.N = 1 ∧ (op = 1 ∨ op = 3 ∨ op = 4 ∨ op = 5)) ∨
    (h.ALEN ≠ 0 ∧ (op = 3 ∨ op = 4 ∨ op = 5)) ∨
    (h.ALEN ≠ 0 ∧ h.N = 1 ∧ (op = 2 ∨ op = 6 ∨ op = 7)) ∨
    (h.DLEN ≠ 0 ∧ (op = 1 ∨ op = 2 ∨ op = 3))

/-- The opcode numbers R67 lists are those of the formats whose columns in R64 forbid the field. -/
theorem Opcode.code_format (op : Opcode) :
    let n := op.code.toNat
    ¬ (n = 0 ∨ 8 ≤ n) ∧
      ((n = 1 ∨ n = 3 ∨ n = 4 ∨ n = 5) ↔ op.format.mayBeAbsent = false) ∧
      ((n = 3 ∨ n = 4 ∨ n = 5) ↔ op.format.hasParam = false) ∧
      ((n = 2 ∨ n = 6 ∨ n = 7) ↔ ¬ op.format.mayBeAbsent = false) ∧
      ((n = 1 ∨ n = 2 ∨ n = 3) ↔ op.format.hasData = false) := by
  cases op <;> decide

theorem Header.N_eq_zero_iff (h : Header) : h.N = 0 ↔ ¬ h.N = 1 := by
  generalize h.N = n
  revert n
  decide

/-- With a listed opcode the clauses are the negation of the "must" columns of R64. -/
theorem Header.illegal_iff_of_code {h : Header} {op : Opcode} (hop : h.OP = op.code) :
    h.Illegal ↔ h.fieldProblem op.format ≠ none := by
  obtain ⟨hused, habsent, hparam, hpresent, hdata⟩ := op.code_format
  rw [ne_eq, Header.fieldProblem_eq_none, Header.N_eq_zero_iff, Header.Illegal, hop]
  simp only [habsent]
  simp only [hused, hparam, hpresent, hdata]
  grind

theorem Header.illegal_iff (h : Header) : h.Illegal ↔ ∀ op, h.select ≠ .ok op := by
  cases ho : opcodeOf h.OP with
  | none =>
    have hunused : h.Illegal := .inl ((opcodeOf_eq_none.1 ho).imp_left fun hzero => by rw [hzero]; rfl)
    refine iff_of_true hunused fun op hsel => ?_
    rw [opcodeOf_eq_some.2 ((h.select_eq_ok op).1 hsel).1] at ho
    cases ho
  | some op =>
    have hop := opcodeOf_eq_some.1 ho
    rw [Header.illegal_iff_of_code hop]
    constructor
    · intro hproblem o hsel
      obtain ⟨ho', hlegal⟩ := (h.select_eq_ok o).1 hsel
      rw [ho', opcodeOf_code] at ho
      obtain rfl := Option.some.inj ho
      exact hproblem hlegal
    · exact fun hnone hlegal => hnone op ((h.select_eq_ok op).2 ⟨hop, hlegal⟩)

end Sys2Proof
end

section
/-! PROOFS. What a step does with what stands on the command channel: a legal frame, an illegal one, a part of one, and
reset against each (R63, R67, R72, R146, R158). -/

namespace Sys2Proof.Machine

/-- Settles O3: the decoder reads the header first; it rejects the frame exactly when no opcode is selected. -/
theorem illegalHeadersAreRejected : Obligations.IllegalHeadersAreRejected := by
  intro H body s h op hcmd hlen hdue
  have hdec : decode s.cmdIn = decodeBody h body := by rw [hcmd, decode_header_append]
  show (h.Illegal → _) ∧ (¬ h.Illegal → _)
  rw [h.illegal_iff]
  cases hsel : h.select with
  | error why =>
    rw [decodeBody_illegal hlen hsel] at hdec
    exact ⟨fun _ => step_illegal hdue hdec, fun hlegal => absurd (fun _ => nofun) hlegal⟩
  | ok o =>
    rw [decodeBody_command hlen hsel] at hdec
    exact ⟨fun hillegal => absurd rfl (hillegal o), fun _ => ⟨_, step_command hdue hdec⟩⟩

/-- Settles O7: the decoder reads the frame of a well-formed command back. -/
theorem stepRunsDecodedCommand : Obligations.StepRunsDecodedCommand := by
  intro i rest s hwf hcmd hdue
  exact step_command hdue (hcmd ▸ decodeOfEncodeIsCommand i rest hwf)

/-! ### A presented frame -/

/-- A word's frame is its header and as many bytes as the header asks for. -/
theorem frameOfWord_eq (nbits w : Nat) :
    ∃ H : BitVec 64, ∃ body, frameOfWord nbits w = leBytes 8 H.toNat ++ body ∧
      body.length = (Header.ofBits H).operandLength := by
  refine ⟨BitVec.ofNat 64 (w % 2 ^ nbits), _, ?_, leBytes_length _ (w % 2 ^ nbits / 2 ^ (8 * 8))⟩
  rw [BitVec.toNat_ofNat, leBytes_mod 8, ← leBytes_add]
  rfl

/-- So the decoder reads the whole frame of a word and leaves nothing of it. -/
theorem decode_frameOfWord {nbits w : Nat} {i : Instr} (h : decodeTableWord nbits w = some i) :
    i.wf = true ∧ frameOfWord nbits w = encode i := by
  unfold decodeTableWord at h
  split at h
  next j rest hdec =>
    obtain rfl := Option.some.inj h
    obtain ⟨hwf, hframe⟩ := decodedCommandHasOneFrame _ _ _ hdec
    obtain ⟨H, body, heq, hlen⟩ := frameOfWord_eq nbits w
    rw [heq, decode_header_append] at hdec
    obtain ⟨op, param, data, -, hparam, hdata, rfl, -⟩ := decodeBody_eq_command hdec
    have hrest : rest.length = 0 := by
      rw [Header.operandLength, List.length_append, List.length_append] at hlen
      omega
    rw [List.length_eq_zero_iff.1 hrest, List.append_nil] at hframe
    exact ⟨hwf, hframe⟩
  next => cases h
  next => cases h

/-- Settles O8: the presented bytes are a command's frame, and taking it undoes the presenting. -/
theorem presentedWordRunsNext : Obligations.PresentedWordRunsNext := by
  intro nbits w i s h
  obtain ⟨hwf, hframe⟩ := decode_frameOfWord h
  have hcmd : (s.withFetchWord nbits w).cmdIn = encode i ++ s.cmdIn := by rw [← hframe]; rfl
  rw [stepRunsDecodedCommand i s.cmdIn _ hwf hcmd (resetDue_delayReset s.resets)]
  show exec i { s with cmdIn := s.cmdIn, resets := countFrames 1 (delayReset s.resets) } = exec i s
  rw [countFrames_delayReset]

/-! ### Waiting and reset -/

/-- Settles O9: a partial frame decodes to none, so the engine waits or is reset. -/
theorem partialFrameWaitsOrIsReset : Obligations.PartialFrameWaitsOrIsReset := by
  intro H body s hpartial
  have hdec : decode s.cmdIn = .incomplete := by
    rcases hpartial with hshort | ⟨hcmd, hlen⟩
    · exact decode_short hshort
    · rw [hcmd, decode_header_append]
      exact decodeBody_incomplete hlen
  exact ⟨step_waits hdec, fun e later hr => ⟨_, step_reset hr (.inr hdec), rfl, rfl, rfl, rfl⟩⟩

/-- Settles O10: no byte stands on the channel and no reset is coming, so the engine waits. -/
theorem resetStartsUninitialized : Obligations.ResetStartsUninitialized :=
  ⟨rfl, rfl, step_waits (decode_short (Nat.succ_pos 7)) rfl⟩

/-- Settles O48: an assertion is due at count 0. -/
theorem resetAbandonsFrame : Obligations.ResetAbandonsFrame := fun _ _ _ hr => step_reset hr (.inl rfl)

/-! ### A list of frames (R56) -/

theorem run_succ {s t : State} (h : step s = .next t) (k : Nat) :
    Sys2Proof.core.run (k + 1) s = Sys2Proof.core.run k t := by
  have hcore : Sys2Proof.core.step s = .next t := h
  simp only [Host.Core.run, hcore]

/-- While `n` more frames come before the first assertion of reset, the next frame is not struck, and one less comes. -/
theorem resets_after_frame {coming : List ResetEvent} {n : Nat} (h : ∀ e ∈ coming.head?, n + 1 ≤ e.frames) :
    resetDue coming = false ∧ ∀ e ∈ (countFrames 1 coming).head?, n ≤ e.frames := by
  cases coming with
  | nil => exact ⟨rfl, nofun⟩
  | cons e later =>
    have he := h e rfl
    refine ⟨?_, ?_⟩
    · rw [← Bool.not_eq_true, resetDue_cons]
      omega
    · rintro _ ⟨⟩
      exact Nat.le_sub_of_add_le he

/-- Settles O47, by induction on the list: the first step runs the first command, which leaves the channels behind its
frame as they are; input that the run leaves alone can be taken off before or after. -/
theorem frameListRunsInOrder : Obligations.FrameListRunsInOrder := by
  intro is rest s hwf hcmd hresets
  induction is generalizing s with
  | nil =>
    refine ⟨s, rfl, ?_, hcmd, rfl⟩
    rw [List.length_nil, countFrames_zero]
    subst hcmd
    rfl
  | cons i is ih =>
    have hnext : s.cmdIn = encode i ++ (is.flatMap encode ++ rest) := by
      rw [hcmd, List.flatMap_cons, List.append_assoc]
    obtain ⟨hdue, hleft⟩ := resets_after_frame hresets
    have hstep := stepRunsDecodedCommand i _ s (hwf i List.mem_cons_self) hnext hdue
    obtain ⟨u, hu⟩ := exec_next i (s.takeFrame (is.flatMap encode ++ rest))
    obtain ⟨hucmd, huresets, -, r, hur⟩ := exec_channels hu
    obtain ⟨t, hrun, hperform, htcmd, htlen⟩ :=
      ih u (fun j hj => hwf j (List.mem_cons_of_mem i hj)) hucmd (huresets ▸ hleft)
    refine ⟨t, (run_succ (hstep.trans hu) is.length).trans hrun, ?_, htcmd, ?_⟩
    · have hinputs := exec_setInputs hu rest (countFrames (i :: is).length s.resets)
      rw [huresets, State.takeFrame_resets, countFrames_countFrames, Nat.add_comm] at hperform
      exact (perform_cons hinputs is).trans hperform
    · rw [htlen, hur, State.takeFrame_responses, List.length_append, List.length_singleton, List.length_cons]
      omega

end Sys2Proof.Machine
end
